-- ==== Sys2Proof/Word.lean ====
section
/-! DEFINITION. The word and byte types of the block: every register is 64 bits wide (10_state.md §2), the message
buffer is made of bytes (R51). -/

namespace Sys2Proof

/-- The contents of one register, one table entry or one command word (10_state.md §2, R120). -/
abbrev Word := BitVec 64

/-- One byte of the message buffer or of the reference-vector ROM (R49, R51). -/
abbrev Byte := BitVec 8

/-- R10: "A value stored into a register or table entry is the natural reduced to that destination's width". -/
abbrev word (n : Nat) : Word := BitVec.ofNat 64 n

end Sys2Proof
end

