-- ==== Sys2Proof/Syntax.lean ====
section
/-! DEFINITION. The commands of the block: one constructor per row of spec/opcode_table.json (R122, R123, R127). -/

namespace Sys2Proof

/-- The 15 command forms of R127. RUN and SELFTEST have one constructor per kernel select value (R123). -/
inductive Instr where
  /-- CREATE (R231). -/
  | create
  /-- DESTROY (R236). -/
  | destroy
  /-- BUILD_TABLE (R240). -/
  | buildTable
  /-- RUN.AUTO (R205). -/
  | runAuto
  /-- RUN.TBL_AUG (R206). -/
  | runTblAug
  /-- RUN.TBL_FAST (R207). -/
  | runTblFast
  /-- RUN.BIT_AUG (R208). -/
  | runBitAug
  /-- RUN.BIT_FAST (R209). -/
  | runBitFast
  /-- DEBUG (R261). -/
  | debug
  /-- SELFTEST.AUTO (R266). -/
  | selftestAuto
  /-- SELFTEST.TBL_AUG (R266). -/
  | selftestTblAug
  /-- SELFTEST.TBL_FAST (R266). -/
  | selftestTblFast
  /-- SELFTEST.BIT_AUG (R266). -/
  | selftestBitAug
  /-- SELFTEST.BIT_FAST (R266). -/
  | selftestBitFast
  /-- REFLECT `n` (R180); `n` is the natural of the 7-bit field RN (R121, R124). -/
  | reflect (n : Nat)
  deriving DecidableEq, Repr

end Sys2Proof
end

