-- ==== Sys2Proof/WellFormed.lean ====
section
/-! DEFINITION. Which terms of `Instr` have an encoding. -/

namespace Sys2Proof

/-- A command is well formed when its operand fits its field: RN is "the natural `c[14:8]` in 0..127" (R121), and
"every 7-bit value decodes" (R124). No other command has an operand in its word. -/
def Instr.wellFormed : Instr → Bool
  | .create => true
  | .destroy => true
  | .buildTable => true
  | .runAuto => true
  | .runTblAug => true
  | .runTblFast => true
  | .runBitAug => true
  | .runBitFast => true
  | .debug => true
  | .selftestAuto => true
  | .selftestTblAug => true
  | .selftestTblFast => true
  | .selftestBitAug => true
  | .selftestBitFast => true
  | .reflect n => decide (n ≤ 127)

end Sys2Proof
end

