-- ==== Sys2Proof/Decode.lean ====
section
/-! DEFINITION. The command word (R120 to R127): its fields, the decoder of R125 and the encoder of R127. -/

namespace Sys2Proof

/-- R121: `OP = c[3:0]`. -/
def fieldOp (c : Word) : BitVec 4 := c.extractLsb' 0 4

/-- R121: `KSEL = c[6:4]`. -/
def fieldKsel (c : Word) : BitVec 3 := c.extractLsb' 4 3

/-- R121: `RN = zext_7(c[14:8])`. -/
def fieldRn (c : Word) : BitVec 7 := c.extractLsb' 8 7

/-- R120: bit 7 and bits 63:15 "must be 0". -/
def reservedBitsClear (c : Word) : Bool := c.extractLsb' 15 49 == 0 && !c.getLsbD 7

/-- R122: the OP value of CREATE. -/
def opCreate : BitVec 4 := 0x1
/-- R122: the OP value of DESTROY. -/
def opDestroy : BitVec 4 := 0x2
/-- R122: the OP value of BUILD_TABLE. -/
def opBuildTable : BitVec 4 := 0x3
/-- R122: the OP value of RUN. -/
def opRun : BitVec 4 := 0x4
/-- R122: the OP value of DEBUG. -/
def opDebug : BitVec 4 := 0x5
/-- R122: the OP value of SELFTEST. -/
def opSelftest : BitVec 4 := 0x6
/-- R122: the OP value of REFLECT. -/
def opReflect : BitVec 4 := 0x7

/-- The tests of R125 by name, in the order it makes them: which one made a command word illegal. Every one of them
ends in the command error IllegalCommand (R126). -/
inductive Illegal where
  /-- `c[63:15] != 0 or c[7] != 0`. -/
  | reservedBits
  /-- `OP not in {0x1 .. 0x7}`. -/
  | reservedOp
  /-- OP is RUN or SELFTEST and `KSEL > 4`. -/
  | reservedKsel
  /-- OP is neither RUN nor SELFTEST and `KSEL != 0`. -/
  | unusedKsel
  /-- OP is not REFLECT and `RN != 0`. -/
  | unusedRn
  deriving DecidableEq, Repr

/-- R125: `if OP != REFLECT and RN != 0: return Illegal`. -/
def withoutRn (c : Word) (i : Instr) : Except Illegal Instr :=
  if fieldRn c = 0 then .ok i else .error .unusedRn

/-- R125, a command that uses neither KSEL nor RN. -/
def plainForm (c : Word) (i : Instr) : Except Illegal Instr :=
  if fieldKsel c = 0 then withoutRn c i else .error .unusedKsel

/-- R123, R125, a command that KSEL selects the kernel of: its five forms in the order of the KSEL values 0 to 4. -/
def kernelForm (c : Word) (auto tblAug tblFast bitAug bitFast : Instr) : Except Illegal Instr :=
  match (fieldKsel c).toNat with
  | 0 => withoutRn c auto
  | 1 => withoutRn c tblAug
  | 2 => withoutRn c tblFast
  | 3 => withoutRn c bitAug
  | 4 => withoutRn c bitFast
  | _ => .error .reservedKsel

/-- R125 `Decode(c)`: total on every command word; "the first failing test makes the command illegal". -/
def decode (c : Word) : Except Illegal Instr :=
  if reservedBitsClear c then
    match (fieldOp c).toNat with
    | 1 => plainForm c .create
    | 2 => plainForm c .destroy
    | 3 => plainForm c .buildTable
    | 4 => kernelForm c .runAuto .runTblAug .runTblFast .runBitAug .runBitFast
    | 5 => plainForm c .debug
    | 6 => kernelForm c .selftestAuto .selftestTblAug .selftestTblFast .selftestBitAug .selftestBitFast
    | 7 => if fieldKsel c = 0 then .ok (.reflect (fieldRn c).toNat) else .error .unusedKsel
    | _ => .error .reservedOp
  else .error .reservedBits

/-- R122: the OP value of a command. -/
def Instr.op : Instr → BitVec 4
  | .create => opCreate
  | .destroy => opDestroy
  | .buildTable => opBuildTable
  | .runAuto => opRun
  | .runTblAug => opRun
  | .runTblFast => opRun
  | .runBitAug => opRun
  | .runBitFast => opRun
  | .debug => opDebug
  | .selftestAuto => opSelftest
  | .selftestTblAug => opSelftest
  | .selftestTblFast => opSelftest
  | .selftestBitAug => opSelftest
  | .selftestBitFast => opSelftest
  | .reflect _ => opReflect

/-- R123: the KSEL value of a command, 0 where it does not use the field (R125). -/
def Instr.ksel : Instr → BitVec 3
  | .create => 0
  | .destroy => 0
  | .buildTable => 0
  | .runAuto => 0
  | .runTblAug => 1
  | .runTblFast => 2
  | .runBitAug => 3
  | .runBitFast => 4
  | .debug => 0
  | .selftestAuto => 0
  | .selftestTblAug => 1
  | .selftestTblFast => 2
  | .selftestBitAug => 3
  | .selftestBitFast => 4
  | .reflect _ => 0

/-- R124: the RN value of a command, 0 where it does not use the field (R125). -/
def Instr.rn : Instr → BitVec 7
  | .create => 0
  | .destroy => 0
  | .buildTable => 0
  | .runAuto => 0
  | .runTblAug => 0
  | .runTblFast => 0
  | .runBitAug => 0
  | .runBitFast => 0
  | .debug => 0
  | .selftestAuto => 0
  | .selftestTblAug => 0
  | .selftestTblFast => 0
  | .selftestBitAug => 0
  | .selftestBitFast => 0
  | .reflect n => BitVec.ofNat 7 n

/-- R120: a command word from its fields, from bit 63 down: 49 reserved bits, RN, reserved bit 7, KSEL, OP. -/
def commandWord (op : BitVec 4) (ksel : BitVec 3) (rn : BitVec 7) : Word :=
  0#49 ++ rn ++ 0#1 ++ ksel ++ op

/-- R127: the command word of a command, "every unused field 0". -/
def encode (i : Instr) : Word := commandWord i.op i.ksel i.rn

/-- The instruction the decoder reads from an instruction of `nbits` bits numbered as spec/opcode_table.json numbers
them. There is one instruction length, one 64-bit word moved whole (R120, R89), so no byte order comes in; bits at or
above `nbits` are 0, and a number past 64 bits is no command word. -/
def decodeTableWord (nbits w : Nat) : Option Instr :=
  if w % 2 ^ nbits < 2 ^ 64 then (decode (BitVec.ofNat 64 (w % 2 ^ nbits))).toOption else none

end Sys2Proof
end

