-- ==== Sys2Proof/Config.lean ====
section
/-! DEFINITION. The implementation parameters of the block (R9) and the one free value the spec leaves open, the
contents of the message buffer after reset (R51, U2). -/

namespace Sys2Proof.Config

/-- R9 `MAXW`: the largest CRC width. -/
abbrev maxWidth : Nat := 64

/-- R9 `TABLE_ENTRIES`. -/
abbrev tableEntries : Nat := 256

/-- R9 `ADDR_BITS`: the width of a host offset, a 128 KiB window. -/
abbrev addrBits : Nat := 17

/-- R9 `BUF_BYTES`: the spec's default size of the message buffer. The size itself is a parameter of the block and
stands in `State.bufBytes`, so that every statement holds for every size (log entry 3). -/
abbrev defaultBufBytes : Nat := 4096

/-- R9: `1 ≤ BUF_BYTES ≤ 65536`. -/
abbrev maxBufBytes : Nat := 65536

/-- FREE VALUE. R9 `MSGBUF_RESET`, U2: the byte the message buffer holds at an address after the given reset, until it is
written ("a model must treat unwritten bytes as any value", D31). It has no body: nothing can be proved of it. The
first argument is `State.resets`, so that the contents after one reset say nothing about those after another
(log entry 4). -/
opaque msgbufReset : Nat → Nat → Byte

/-- FREE VALUE. R9 `CRC_BASE`, U4: where the platform maps the block's window. No rule of the block depends on it
(log entry 11). -/
opaque crcBase : Nat

end Sys2Proof.Config
end

