-- ==== Sys2Proof/Machine/State.lean ====
section
/-! DEFINITION. The state of the block as plain data: every register of R32, the STATUS fields of R42, the table (R48),
PENDING (R50) and the message buffer (R51); and beside the block the host program and the turns that say which agent
moves next (R18, R95). -/

namespace Sys2Proof.Machine

/-- The registers of one CRCParameterSet (R33). The staging registers P_* are one such record, and the Engine registers
E_CFG to E_USERDATA are the Engine's copy of one (R37). -/
structure ParamRecord where
  /-- P_CFG / E_CFG: WIDTH, REFIN, REFOUT, SWAP and FAST (R34). -/
  cfg : Word
  /-- P_POLY / E_POLY. -/
  poly : Word
  /-- P_INIT / E_INIT: the direct seed (R35). -/
  init : Word
  /-- P_XOROUT / E_XOROUT. -/
  xorout : Word
  /-- P_CHECK / E_CHECK. -/
  check : Word
  /-- P_NAME / E_NAME: an opaque label (R36). -/
  name : Word
  /-- P_USERDATA / E_USERDATA: an opaque payload (R36). -/
  userdata : Word
  deriving DecidableEq, Repr

/-- Every register of a parameter record at 0 (R52, R236). -/
def ParamRecord.zero : ParamRecord :=
  { cfg := 0, poly := 0, init := 0, xorout := 0, check := 0, name := 0, userdata := 0 }

/-- The eleven Engine registers E_* (R32, R37, R38). -/
structure EngineRegs where
  /-- E_CFG, E_POLY, E_INIT, E_XOROUT, E_CHECK, E_NAME, E_USERDATA (R37). -/
  params : ParamRecord
  /-- E_CRCMASK (R38). -/
  crcmask : Word
  /-- E_HIGHBIT (R38). -/
  highbit : Word
  /-- E_INIT_DIRECT (R38, R160). -/
  initDirect : Word
  /-- E_INIT_NODIRECT (R38, R161). -/
  initNodirect : Word
  deriving DecidableEq, Repr

/-- Every Engine register at 0: no Engine is held (R39, R52, R236). -/
def EngineRegs.zero : EngineRegs :=
  { params := ParamRecord.zero, crcmask := 0, highbit := 0, initDirect := 0, initNodirect := 0 }

/-- DBG_TBL_AUG, DBG_TBL_FAST, DBG_BIT_AUG and DBG_BIT_FAST (R45). -/
structure DbgRegs where
  tblAug : Word
  tblFast : Word
  bitAug : Word
  bitFast : Word
  deriving DecidableEq, Repr

/-- Every table entry at 0 (R39, R52, R236). -/
def zeroTable : Vector Word Config.tableEntries := Vector.replicate Config.tableEntries 0

/-- Every DBG register at 0 (R52). -/
def DbgRegs.zero : DbgRegs := { tblAug := 0, tblFast := 0, bitAug := 0, bitFast := 0 }

/-- The fields of STATUS (R42). Software only reads STATUS, whole, as the word `statusWord` makes of them; the
reserved bits 7, 23:22 and 63:28 have no field and read 0 (log entry 8). -/
structure Status where
  /-- Bit 0: an Engine is held. -/
  engine : Bool
  /-- Bit 1. -/
  tableBuilt : Bool
  /-- Bit 2: a command is pending. -/
  busy : Bool
  /-- Bit 3: the last command ended in `raise Error`. -/
  err : Bool
  /-- Bit 4: `warn(TableExists)`. -/
  warn : Bool
  /-- Bit 5: DEBUG found all computed results equal. -/
  agree : Bool
  /-- Bit 6: DEBUG computed the two table kernels. -/
  dbgTbl : Bool
  /-- Bits 15:8: the error code of R300. -/
  errcode : BitVec 8
  /-- Bit 16. -/
  peWidth : Bool
  /-- Bit 17. -/
  pePoly : Bool
  /-- Bit 18. -/
  peInit : Bool
  /-- Bit 19. -/
  peXorout : Bool
  /-- Bit 20. -/
  niEngine : Bool
  /-- Bit 21. -/
  niBuffer : Bool
  /-- Bits 27:24: the OP field of the last completed command word. -/
  lastop : BitVec 4
  deriving DecidableEq, Repr

/-- STATUS after reset: every field 0 (R42, R52). -/
def Status.zero : Status :=
  { engine := false, tableBuilt := false, busy := false, err := false, warn := false, agree := false, dbgTbl := false,
    errcode := 0, peWidth := false, pePoly := false, peInit := false, peXorout := false, niEngine := false,
    niBuffer := false, lastop := 0 }

/-- The set of violations the validator returns (R151): one Bool per kind. -/
structure Violations where
  invalidWidth : Bool
  invalidPoly : Bool
  invalidInit : Bool
  invalidXorout : Bool
  deriving DecidableEq, Repr

/-- The command errors of R300, each with the information it records. They are results reported in STATUS, not faults:
the machine goes on (R302). -/
inductive CmdError where
  /-- 0x01, CREATE: the staged record fails a check. -/
  | parameterInvalid (v : Violations)
  /-- 0x02: no Engine held; for RUN and DEBUG also no valid buffer descriptor. -/
  | nullInput (niEngine niBuffer : Bool)
  /-- 0x03: never raised, the storage is fixed (R234). -/
  | allocationFailure
  /-- 0x04, SELFTEST. -/
  | checkMismatch
  /-- 0x05: the command word does not decode. -/
  | illegalCommand
  /-- 0x06, CREATE. -/
  | engineExists
  /-- 0x07: a table kernel on a width that is not a multiple of 8. -/
  | widthNotAligned
  /-- 0x08, RUN and DEBUG. -/
  | bufferRange
  /-- 0x09, DEBUG. -/
  | kernelDisagree
  /-- 0x0A, REFLECT. -/
  | invalidOperand
  deriving DecidableEq, Repr

/-- The four kernels (R17, R185). -/
inductive Kernel where
  | tblAug
  | tblFast
  | bitAug
  | bitFast
  deriving DecidableEq, Repr

/-- The kernel select values (R123). -/
inductive KernelSel where
  | auto
  | tblAug
  | tblFast
  | bitAug
  | bitFast
  deriving DecidableEq, Repr

/-- The held Engine as the kernels read it (§1 of 41_kernels.md): the Engine registers as naturals (R10), the flags of
E_CFG, and the table. It is a view of the state, not state. Of a width
outside 1 to 64, which no run reaches, see log entry 12 (DESIGN CHOICE). -/
structure Engine where
  /-- `E.WIDTH`. -/
  width : Nat
  /-- `E.POLY`. -/
  poly : Nat
  /-- `E.REFIN`. -/
  refin : Bool
  /-- `E.REFOUT`. -/
  refout : Bool
  /-- `E.SWAP`. -/
  swap : Bool
  /-- `E.FAST`. -/
  fast : Bool
  /-- `E.XOROUT`. -/
  xorout : Nat
  /-- `E.INIT_DIRECT`. -/
  initDirect : Nat
  /-- `E.INIT_NODIRECT`. -/
  initNodirect : Nat
  /-- `TABLE`. -/
  table : Vector Word Config.tableEntries
  deriving DecidableEq, Repr

/-- The registers of R32 by name. TABLE and MSGBUF are regions of their own (R81). -/
inductive Reg where
  | id
  | pCfg | pPoly | pInit | pXorout | pCheck | pName | pUserdata
  | eCfg | ePoly | eInit | eXorout | eCheck | eName | eUserdata
  | eCrcmask | eHighbit | eInitDirect | eInitNodirect
  | cmd | status | result
  | dbgTblAug | dbgTblFast | dbgBitAug | dbgBitFast
  | bufAddr | bufLen | bufCtrl | reflIn
  deriving DecidableEq, Repr

/-- The access kinds of R32. -/
inductive Access where
  | rw
  | ro
  | wo
  deriving DecidableEq, Repr

/-- R80: the sizes of a host transaction, 1, 2, 4 or 8 bytes. -/
inductive AccessSize where
  | b1
  | b2
  | b4
  | b8
  deriving DecidableEq, Repr

/-- R81: what a host transaction reaches. -/
inductive Target where
  /-- A register of the register window. -/
  | reg (r : Reg)
  /-- Entry `i` of the table window. -/
  | table (i : Fin Config.tableEntries)
  /-- The message buffer at a byte address, `off − 0x10000`. -/
  | buffer (a : Nat)
  deriving DecidableEq, Repr

/-- R80: one host transaction. The offset has `ADDR_BITS` bits; of `data` the low `8·size` bits are the data
(DEDUCED, log entry 13). -/
inductive HostTxn where
  /-- `HostRead(off, size)`. -/
  | read (off : BitVec Config.addrBits) (size : AccessSize)
  /-- `HostWrite(off, size, data)`. -/
  | write (off : BitVec Config.addrBits) (size : AccessSize) (data : Word)
  deriving DecidableEq, Repr

/-- One operation of a host program (R128): a transaction, or WAIT, "`R STATUS` repeated until bit 2 (BUSY) reads 0".
The other pseudo-instructions expand to these (Machine/HostProgram.lean). -/
inductive HostOp where
  | txn (t : HostTxn)
  | wait
  deriving DecidableEq, Repr

/-- R80: `resp ∈ {OKAY, ERROR}`. -/
inductive Resp where
  | okay
  | error
  deriving DecidableEq, Repr

/-- What the block answers to a host transaction (R80): a read `(data, resp)`, a write `resp`. -/
inductive Response where
  | read (data : Word) (resp : Resp)
  | write (resp : Resp)
  deriving DecidableEq, Repr

/-- Who moves next (R18, R95): the host's next operation, the ENGINE agent's completion step, or the reset input
(R340). DESIGN CHOICE, log entry 1. Reset is one turn, with no level held between its assertion and its release
(DESIGN CHOICE, log entry 15). -/
inductive Turn where
  | host
  | engine
  | reset
  deriving DecidableEq, Repr

/-- The message buffer: the bytes written since reset, by address. Addresses rise strictly; an address that is not
listed has not been written since reset, and holds no value the spec fixes (R51; log entry 4). -/
abbrev Memory := List Host.Cell

/-- The state of the block and of what drives it. -/
structure State where
  /-- The staging registers P_* (R33). -/
  staged : ParamRecord
  /-- The Engine registers E_* (R37, R38). -/
  eng : EngineRegs
  /-- TABLE[0] to TABLE[255] (R48). -/
  table : Vector Word Config.tableEntries
  /-- STATUS (R42). -/
  status : Status
  /-- RESULT (R44). -/
  result : Word
  /-- The DBG registers (R45). -/
  dbg : DbgRegs
  /-- BUF_ADDR (R46). -/
  bufAddr : Word
  /-- BUF_LEN (R46). -/
  bufLen : Word
  /-- BUF_CTRL (R47). -/
  bufCtrl : Word
  /-- REFL_IN (R48). -/
  reflIn : Word
  /-- PENDING (R50); it keeps the word after its completion (DEDUCED, log entry 5). -/
  pending : Word
  /-- MSGBUF (R51). -/
  msgbuf : Memory
  /-- The model's own: the parameter BUF_BYTES (R9), which no step changes (log entry 3). -/
  bufBytes : Nat
  /-- The model's own: how many times the reset input has been asserted, which picks the free contents of the message
  buffer (`Config.msgbufReset`, log entry 4). -/
  resets : Nat
  /-- The model's own: the operations the host has still to perform, in its order (log entry 2). -/
  program : List HostOp
  /-- The model's own: the turns still to be taken (log entry 1). -/
  turns : List Turn
  /-- The model's own: the block's answers to the host so far, newest first (U6, log entry 2). -/
  responses : List Response
  deriving DecidableEq, Repr

/-- Why the machine stops. IT NEVER DOES: the block has no traps, an error of a command is a result reported in STATUS
(R302), a refused host transaction is an ERROR response (R301), and the block "never stops; it waits for the next CMD
write" (R345). So no fault has a constructor. -/
inductive Fault where
  deriving DecidableEq, Repr

/-- Why the model has no answer. -/
inductive Refusal where
  /-- An instruction whose arm of `exec` gives no meaning yet. Raised only by such an arm of Dispatch.lean; there is
  none. Safe: the machine stops where the hardware goes on. -/
  | notModelled (mnemonic : String)
  deriving DecidableEq, Repr

/-- What a command's meaning answers. -/
abbrev Result := Host.Outcome State Fault Refusal

/-- The block right after reset (R52, R340): every register but ID is 0, every table entry 0, PENDING 0, the message
buffer unspecified. The model's own fields: the default BUF_BYTES, no earlier reset counted, no host program, no turns
given, no answers yet (log entries 1 to 4). -/
def State.reset : State :=
  { staged := ParamRecord.zero
    eng := EngineRegs.zero
    table := zeroTable
    status := Status.zero
    result := 0
    dbg := DbgRegs.zero
    bufAddr := 0
    bufLen := 0
    bufCtrl := 0
    reflIn := 0
    pending := 0
    msgbuf := []
    bufBytes := Config.defaultBufBytes
    resets := 0
    program := []
    turns := []
    responses := [] }

end Sys2Proof.Machine
end

