-- ==== Sys2Proof/Machine/Flags.lean ====
section
/-! DEFINITION. STATUS: its word (R42), the error codes (R300) and the status write that ends every completion step
(R306). -/

namespace Sys2Proof.Machine

/-- R300: the code of a command error. -/
def CmdError.code : CmdError → BitVec 8
  | .parameterInvalid _ => 0x01
  | .nullInput _ _ => 0x02
  | .allocationFailure => 0x03
  | .checkMismatch => 0x04
  | .illegalCommand => 0x05
  | .engineExists => 0x06
  | .widthNotAligned => 0x07
  | .bufferRange => 0x08
  | .kernelDisagree => 0x09
  | .invalidOperand => 0x0A

/-- R306: the PE_* information of an error, no bit set but for ParameterInvalid. -/
def CmdError.violations : CmdError → Violations
  | .parameterInvalid v => v
  | .nullInput _ _ | .allocationFailure | .checkMismatch | .illegalCommand | .engineExists | .widthNotAligned
  | .bufferRange | .kernelDisagree | .invalidOperand => { invalidWidth := false, invalidPoly := false, invalidInit := false, invalidXorout := false }

/-- R306: the NI_ENGINE information of an error. -/
def CmdError.noEngine : CmdError → Bool
  | .nullInput e _ => e
  | .parameterInvalid _ | .allocationFailure | .checkMismatch | .illegalCommand | .engineExists | .widthNotAligned
  | .bufferRange | .kernelDisagree | .invalidOperand => false

/-- R306: the NI_BUFFER information of an error. -/
def CmdError.noBuffer : CmdError → Bool
  | .nullInput _ b => b
  | .parameterInvalid _ | .allocationFailure | .checkMismatch | .illegalCommand | .engineExists | .widthNotAligned
  | .bufferRange | .kernelDisagree | .invalidOperand => false

/-- R42: the 64-bit word a host reads from STATUS, its fields from bit 63 down. -/
def statusWord (t : Status) : Word :=
  0#36 ++ t.lastop ++ 0#2
    ++ BitVec.ofBool t.niBuffer ++ BitVec.ofBool t.niEngine
    ++ BitVec.ofBool t.peXorout ++ BitVec.ofBool t.peInit ++ BitVec.ofBool t.pePoly ++ BitVec.ofBool t.peWidth
    ++ t.errcode ++ 0#1
    ++ BitVec.ofBool t.dbgTbl ++ BitVec.ofBool t.agree ++ BitVec.ofBool t.warn ++ BitVec.ofBool t.err
    ++ BitVec.ofBool t.busy ++ BitVec.ofBool t.tableBuilt ++ BitVec.ofBool t.engine

/-- R306 `FinishStatus(c, outcome)`: every last-command field is rewritten, BUSY is cleared, and ENGINE and TABLE_BUILT
stay as they are. `op` is `c[3:0]`; `warn`, `agree` and `dbgTbl` are what the command's rule recorded, and `err` is its
error, if it raised one. -/
def finishStatus (op : BitVec 4) (warn agree dbgTbl : Bool) (err : Option CmdError) (t : Status) : Status :=
  { engine := t.engine
    tableBuilt := t.tableBuilt
    busy := false
    err := err.isSome
    warn := warn
    agree := agree
    dbgTbl := dbgTbl
    errcode := (err.map CmdError.code).getD 0
    peWidth := (err.map fun e => e.violations.invalidWidth).getD false
    pePoly := (err.map fun e => e.violations.invalidPoly).getD false
    peInit := (err.map fun e => e.violations.invalidInit).getD false
    peXorout := (err.map fun e => e.violations.invalidXorout).getD false
    niEngine := (err.map CmdError.noEngine).getD false
    niBuffer := (err.map CmdError.noBuffer).getD false
    lastop := op }

end Sys2Proof.Machine
end

