-- ==== Sys2Proof/Machine/Ops.lean ====
section
/-! DEFINITION. The named operations over the state: the message buffer (R14, R51), the reference-vector ROM (R49), how a
command finishes (R15): with success, or by raising an error, which is what this block has in place of taking an
exception (R302); and the reset input (R340). There is no return from an exception (R311). -/

namespace Sys2Proof.Machine

/-! ### The message buffer -/

/-- The byte written at an address since reset, if one was. What an unlisted address holds is no byte the spec fixes. -/
def Memory.get? : Memory → Nat → Option Byte
  | [], _ => none
  | (b, v) :: m, a => if a = b then some v else Memory.get? m a

/-- The buffer with one byte written, in the canonical form. -/
def Memory.set : Memory → Nat → Byte → Memory
  | [], a, v => [(a, v)]
  | (b, u) :: m, a, v =>
    if a < b then (a, v) :: (b, u) :: m
    else if a = b then (a, v) :: m
    else (b, u) :: Memory.set m a v

/-- The canonical form: addresses strictly rising. An unlisted address holds no byte, so no entry says what an unlisted
address would (log entry 4). -/
def Memory.wf : Memory → Bool
  | [] => true
  | [_] => true
  | c :: d :: m => decide (c.1 < d.1) && Memory.wf (d :: m)

/-- Every listed address lies in a buffer of `n` bytes (R51). -/
def Memory.inside (m : Memory) (n : Nat) : Bool := m.all fun c => decide (c.1 < n)

/-- R14 `Byte(a)`: the byte at an address of the message buffer; one not written since reset is the free value of
`MSGBUF_RESET` (R347 item 5, U2). -/
def State.byte (s : State) (a : Nat) : Byte := (s.msgbuf.get? a).getD (Config.msgbufReset s.resets a)

/-- One byte written to the message buffer. -/
def State.setByte (s : State) (a : Nat) (v : Byte) : State := { s with msgbuf := s.msgbuf.set a v }

/-- R14 `MemRead(a, n)`: `n` bytes from `a`, little-endian. -/
def memRead (s : State) : Nat → Nat → Nat
  | _, 0 => 0
  | a, n + 1 => (s.byte a).toNat ||| (memRead s (a + 1) n <<< 8)

/-- R14 `MemWrite(a, n, v)`: byte `v[8k+7:8k]` to address `a + k` for `k = 0 .. n-1`. -/
def memWrite (s : State) : Nat → Nat → Nat → State
  | _, 0, _ => s
  | a, n + 1, v => memWrite (s.setByte a (BitVec.ofNat 8 v)) (a + 1) n (v >>> 8)

/-! ### Constants of the block -/

/-- R31: the constant the ID register reads as (DESIGN CHOICE, log entry 10: no field of State). -/
def idWord : Word := 0x4352434500000007

/-- R49: the reference-vector ROM, "123456789"; `ROM(k) = 0x31 + k`. -/
def rom : List Byte := [0x31, 0x32, 0x33, 0x34, 0x35, 0x36, 0x37, 0x38, 0x39]

/-! ### Finishing a command (R15) -/

/-- The success of a command that writes no value: `complete()`. -/
def complete (op : BitVec 4) (s : State) : State :=
  { s with status := finishStatus op false false false none s.status }

/-- The success of a command that produces a value: `complete(v)`, `x[RESULT] <- v`. -/
def completeWith (op : BitVec 4) (v : Nat) (s : State) : State :=
  complete op { s with result := word v }

/-- R15, R302, R306 `raise Error(code, info)`: the command stops, the writes its rule performed before stand, and the
error is reported in STATUS. No mode changes, nothing is saved and nothing is jumped to. -/
def raiseError (op : BitVec 4) (e : CmdError) (s : State) : State :=
  { s with status := finishStatus op false false false (some e) s.status }

/-- R125, R126: the completion of a command word that does not decode: IllegalCommand, LASTOP the word's bits 3:0. -/
def illegalCommand (s : State) : State := raiseError (fieldOp s.pending) .illegalCommand s

/-! ### Reset -/

/-- R340: the reset input. The block takes its reset state at once; a pending command is abandoned and a held Engine
released. The size of the buffer is the implementation's and stays; the buffer's contents are unspecified anew; the
host's program, its turns and the answers it has had are not the block's (DEDUCED, log entry 9). Assertion and release are
one transition, so no host transaction falls between them (DESIGN CHOICE, log entry 15). -/
def resetInput (s : State) : State :=
  { State.reset with
    bufBytes := s.bufBytes
    resets := s.resets + 1
    program := s.program
    turns := s.turns
    responses := s.responses }

end Sys2Proof.Machine
end

