-- ==== Sys2Proof/Machine/Operands.lean ====
section
/-! DEFINITION. What a command reads: the fields of P_CFG and E_CFG (R34), the buffer descriptor and the message it
describes (R46, R47, R90), and the Engine (R13). And the register map (R32): offsets, access kinds, the values a host
reads and the writable bits. -/

namespace Sys2Proof.Machine

/-! ### Fields -/

/-- R34: `P_CFG.WIDTH`, bits 6:0. -/
def cfgWidth (c : Word) : Nat := (c.extractLsb' 0 7).toNat
/-- R34: bit 8. -/
def cfgRefin (c : Word) : Bool := c.getLsbD 8
/-- R34: bit 9. -/
def cfgRefout (c : Word) : Bool := c.getLsbD 9
/-- R34: bit 10. -/
def cfgSwap (c : Word) : Bool := c.getLsbD 10
/-- R34: bit 11. -/
def cfgFast (c : Word) : Bool := c.getLsbD 11

/-- R34, R87: the writable bits of P_CFG, all but the reserved bits 7 and 63:12. -/
def cfgWritable : Word := 0xF7F

/-- R47, R87: the writable bits of BUF_CTRL, VALID alone. -/
def bufCtrlWritable : Word := 0x1

/-- R47: `BUF_CTRL.VALID`. -/
def bufValid (s : State) : Bool := s.bufCtrl.getLsbD 0

/-- R13: `E.name`, the held Engine as the kernels read it. -/
def engineOf (s : State) : Engine :=
  { width := cfgWidth s.eng.params.cfg
    poly := s.eng.params.poly.toNat
    refin := cfgRefin s.eng.params.cfg
    refout := cfgRefout s.eng.params.cfg
    swap := cfgSwap s.eng.params.cfg
    fast := cfgFast s.eng.params.cfg
    xorout := s.eng.params.xorout.toNat
    initDirect := s.eng.initDirect.toNat
    initNodirect := s.eng.initNodirect.toNat
    table := s.table }

/-- R202: `x[BUF_ADDR] + x[BUF_LEN] > BUF_BYTES`, "unbounded sum, no wrap". -/
def bufferOutOfRange (s : State) : Bool := decide (s.bufAddr.toNat + s.bufLen.toNat > s.bufBytes)

/-- R90, R202: `msg = [Byte(x[BUF_ADDR] + k) for k in 0 .. x[BUF_LEN] - 1]`. -/
def message (s : State) : List Byte :=
  (List.range s.bufLen.toNat).map fun k => s.byte (s.bufAddr.toNat + k)

/-! ### The register map -/

/-- R32: the offset of a register. -/
def Reg.offset : Reg → Nat
  | .id => 0x000
  | .pCfg => 0x010
  | .pPoly => 0x018
  | .pInit => 0x020
  | .pXorout => 0x028
  | .pCheck => 0x030
  | .pName => 0x038
  | .pUserdata => 0x040
  | .eCfg => 0x080
  | .ePoly => 0x088
  | .eInit => 0x090
  | .eXorout => 0x098
  | .eCheck => 0x0A0
  | .eName => 0x0A8
  | .eUserdata => 0x0B0
  | .eCrcmask => 0x0B8
  | .eHighbit => 0x0C0
  | .eInitDirect => 0x0C8
  | .eInitNodirect => 0x0D0
  | .cmd => 0x100
  | .status => 0x108
  | .result => 0x110
  | .dbgTblAug => 0x118
  | .dbgTblFast => 0x120
  | .dbgBitAug => 0x128
  | .dbgBitFast => 0x130
  | .bufAddr => 0x140
  | .bufLen => 0x148
  | .bufCtrl => 0x150
  | .reflIn => 0x158

/-- R32: the registers in the order of their offsets. -/
def allRegs : List Reg :=
  [.id, .pCfg, .pPoly, .pInit, .pXorout, .pCheck, .pName, .pUserdata,
   .eCfg, .ePoly, .eInit, .eXorout, .eCheck, .eName, .eUserdata, .eCrcmask, .eHighbit, .eInitDirect, .eInitNodirect,
   .cmd, .status, .result, .dbgTblAug, .dbgTblFast, .dbgBitAug, .dbgBitFast, .bufAddr, .bufLen, .bufCtrl, .reflIn]

/-- R32: the access kind of a register. -/
def Reg.access : Reg → Access
  | .id => .ro
  | .pCfg | .pPoly | .pInit | .pXorout | .pCheck | .pName | .pUserdata => .rw
  | .eCfg | .ePoly | .eInit | .eXorout | .eCheck | .eName | .eUserdata => .ro
  | .eCrcmask | .eHighbit | .eInitDirect | .eInitNodirect => .ro
  | .cmd => .wo
  | .status | .result => .ro
  | .dbgTblAug | .dbgTblFast | .dbgBitAug | .dbgBitFast => .ro
  | .bufAddr | .bufLen | .bufCtrl | .reflIn => .rw

/-- R85: the register at an offset of the register window, if R32 lists one there. -/
def regAt? (off : Nat) : Option Reg := allRegs.find? fun r => r.offset == off

/-- R13, R86: the value a host reads from a register; CMD reads 0. -/
def readReg (s : State) : Reg → Word
  | .id => idWord
  | .pCfg => s.staged.cfg
  | .pPoly => s.staged.poly
  | .pInit => s.staged.init
  | .pXorout => s.staged.xorout
  | .pCheck => s.staged.check
  | .pName => s.staged.name
  | .pUserdata => s.staged.userdata
  | .eCfg => s.eng.params.cfg
  | .ePoly => s.eng.params.poly
  | .eInit => s.eng.params.init
  | .eXorout => s.eng.params.xorout
  | .eCheck => s.eng.params.check
  | .eName => s.eng.params.name
  | .eUserdata => s.eng.params.userdata
  | .eCrcmask => s.eng.crcmask
  | .eHighbit => s.eng.highbit
  | .eInitDirect => s.eng.initDirect
  | .eInitNodirect => s.eng.initNodirect
  | .cmd => 0
  | .status => statusWord s.status
  | .result => s.result
  | .dbgTblAug => s.dbg.tblAug
  | .dbgTblFast => s.dbg.tblFast
  | .dbgBitAug => s.dbg.bitAug
  | .dbgBitFast => s.dbg.bitFast
  | .bufAddr => s.bufAddr
  | .bufLen => s.bufLen
  | .bufCtrl => s.bufCtrl
  | .reflIn => s.reflIn

/-- R41: an accepted CMD write latches the command word and sets BUSY; "nothing else changes". -/
def acceptCommand (v : Word) (s : State) : State :=
  { s with pending := v, status := { s.status with busy := true } }

/-- R41, R87: what an accepted host write does to a register. An RW register takes the data into its writable bits, CMD
accepts a command, and an RO register is never reached: the port refuses the write (R86). -/
def writeReg (s : State) (r : Reg) (v : Word) : State :=
  match r with
  | .pCfg => { s with staged := { s.staged with cfg := v &&& cfgWritable } }
  | .pPoly => { s with staged := { s.staged with poly := v } }
  | .pInit => { s with staged := { s.staged with init := v } }
  | .pXorout => { s with staged := { s.staged with xorout := v } }
  | .pCheck => { s with staged := { s.staged with check := v } }
  | .pName => { s with staged := { s.staged with name := v } }
  | .pUserdata => { s with staged := { s.staged with userdata := v } }
  | .bufAddr => { s with bufAddr := v }
  | .bufLen => { s with bufLen := v }
  | .bufCtrl => { s with bufCtrl := v &&& bufCtrlWritable }
  | .reflIn => { s with reflIn := v }
  | .cmd => acceptCommand v s
  | .id | .eCfg | .ePoly | .eInit | .eXorout | .eCheck | .eName | .eUserdata | .eCrcmask | .eHighbit | .eInitDirect
  | .eInitNodirect | .status | .result | .dbgTblAug | .dbgTblFast | .dbgBitAug | .dbgBitFast => s

end Sys2Proof.Machine
end

