-- ==== Sys2Proof/Machine/Primitives.lean ====
section
/-! DEFINITION. The pure functions of 40_primitives.md, on naturals as R10 has them: the mask (R12), the validator
(R151), the reflector (R155), the division steps (R158), the seeds (R159 to R161), the table entry (R170); and the
REFLECT command (R180). -/

namespace Sys2Proof.Machine

/-- R12: `mask(w) = 2^w - 1` for `w ≤ 64`, `2^64 - 1` above (R153). -/
def mask (w : Nat) : Nat := if w ≤ Config.maxWidth then 2 ^ w - 1 else 2 ^ 64 - 1

/-- R11: `v[hi:lo] = (v >> lo) & mask(hi-lo+1)`. -/
def slice (v hi lo : Nat) : Nat := (v >>> lo) &&& mask (hi - lo + 1)

/-! ### Validator -/

/-- R151 `Validate`: "the four checks are independent: all four are evaluated on every call" (R152). -/
def validate (width poly init xorout : Nat) : Violations :=
  { invalidWidth := !(decide (1 ≤ width) && decide (width ≤ 64))
    invalidPoly := poly != (poly &&& mask width)
    invalidInit := init != (init &&& mask width)
    invalidXorout := xorout != (xorout &&& mask width) }

/-- R151: "The record is valid iff `V` is empty". -/
def Violations.none (v : Violations) : Bool :=
  !(v.invalidWidth || v.invalidPoly || v.invalidInit || v.invalidXorout)

/-! ### Reflector -/

/-- R155 `reflect(value, n)`: "reverses the order of the low `n` bits of `value`, leaving higher bits as zero",
for `1 ≤ n ≤ 64`; of another `n` see log entry 12 (DESIGN CHOICE). -/
def reflect (value n : Nat) : Nat :=
  (List.range n).foldl (fun r i => if value.testBit i then r ||| (1 <<< (n - 1 - i)) else r) 0

/-! ### Division steps and seeds -/

/-- R158 `ZStep(r)`, for width `w` and polynomial `poly`. Of arguments outside the ranges of R158 to R161, here and in what
follows, see log entry 12 (DESIGN CHOICE). -/
def zStep (w poly r : Nat) : Nat :=
  if r.testBit (w - 1) then ((r <<< 1) &&& mask w) ^^^ poly else (r <<< 1) &&& mask w

/-- R158 `AStep(r, b)`: the input bit enters at bit 0. -/
def aStep (w poly r : Nat) (b : Bool) : Nat :=
  if r.testBit (w - 1) then (((r <<< 1) ||| b.toNat) &&& mask w) ^^^ poly else ((r <<< 1) ||| b.toNat) &&& mask w

/-- R158 `FStep(r, b)`: the input bit enters at the test of the top bit. -/
def fStep (w poly r : Nat) (b : Bool) : Nat :=
  if r.testBit (w - 1) ^^ b then ((r <<< 1) &&& mask w) ^^^ poly else (r <<< 1) &&& mask w

/-- R159 `Fold(v) = ZStep^w(v)`. -/
def fold (w poly v : Nat) : Nat := (zStep w poly)^[w] v

/-- R161: one iteration of `Unfold`. -/
def unfoldStep (w poly v : Nat) : Nat :=
  if v.testBit 0 then ((v ^^^ poly) >>> 1) ||| (1 <<< (w - 1)) else v >>> 1

/-- R161 `Unfold(v)`: `w` iterations. -/
def unfold (w poly v : Nat) : Nat := (unfoldStep w poly)^[w] v

/-- R160 `SeedDirect(INIT) = INIT`. -/
def seedDirect (init : Nat) : Nat := init

/-- R161 `SeedNondirect(INIT) = Unfold(INIT)`. -/
def seedNondirect (w poly init : Nat) : Nat := unfold w poly init

/-! ### Table -/

/-- R170 `TableEntry(i)`, for `8 ≤ w ≤ 64`; of a width below 8, where no table holds it, see log entry 16 (DESIGN CHOICE). -/
def tableEntry (w poly : Nat) (refin : Bool) (i : Nat) : Nat :=
  let c := if refin then reflect i 8 else i
  let r := (zStep w poly)^[8] ((c <<< (w - 8)) &&& mask w)
  (if refin then reflect r w else r) &&& mask w

/-- R172: what `BuildTable()` writes to `TABLE[i]`; 0 for widths below 8 (R171). -/
def tableValue (w poly : Nat) (refin : Bool) (i : Nat) : Nat :=
  if 8 ≤ w then tableEntry w poly refin i else 0

/-- R172: the whole table of a record. -/
def tableOf (w poly : Nat) (refin : Bool) : Vector Word Config.tableEntries :=
  Vector.mk ((List.range Config.tableEntries).map fun i => word (tableValue w poly refin i)).toArray (by simp)

/-! ### REFLECT -/

/-- REFLECT `n` (R180). -/
def execReflect (n : Nat) (s : State) : Result :=
  if 1 ≤ n ∧ n ≤ 64 then .next (completeWith opReflect (reflect s.reflIn.toNat n) s)
  else .next (raiseError opReflect .invalidOperand s)

end Sys2Proof.Machine
end

