-- ==== Sys2Proof/Machine/Kernels.lean ====
section
/-! DEFINITION. The four kernels (R185 to R191), kernel selection (R200) and the five RUN commands (R202 to R209). -/

namespace Sys2Proof.Machine

/-- R186 `FinBit(r)`. -/
def finBit (E : Engine) (r : Nat) : Nat :=
  ((if E.refout then reflect r E.width else r) ^^^ E.xorout) &&& mask E.width

/-- R187 `FinTbl(r)`. -/
def finTbl (E : Engine) (r : Nat) : Nat :=
  ((if E.refin != E.refout then reflect r E.width else r) ^^^ E.xorout) &&& mask E.width

/-- R188, R189: an input byte, "reflected first if `refin`". -/
def inputByte (refin : Bool) (m : Byte) : Nat := if refin then reflect m.toNat 8 else m.toNat

/-- R188, R189: `for j in 7 downto 0: r = step(r, c[j])`. -/
def eightBits (step : Nat → Bool → Nat) (r c : Nat) : Nat :=
  [7, 6, 5, 4, 3, 2, 1, 0].foldl (fun r j => step r (c.testBit j)) r

/-- R188: the register of the bit-by-bit augmented family after the message, before the augmentation. -/
def bitAugRegister (E : Engine) (r : Nat) (msg : List Byte) : Nat :=
  msg.foldl (fun r m => eightBits (aStep E.width E.poly) r (inputByte E.refin m)) r

/-- R188 `BitAug(msg)`: the augmentation is "exactly w zero bits". -/
def bitAug (E : Engine) (msg : List Byte) : Nat :=
  finBit E ((zStep E.width E.poly)^[E.width] (bitAugRegister E E.initNodirect msg))

/-- R189: the register of the bit-by-bit fast family after the message. -/
def bitFastRegister (E : Engine) (r : Nat) (msg : List Byte) : Nat :=
  msg.foldl (fun r m => eightBits (fStep E.width E.poly) r (inputByte E.refin m)) r

/-- R189 `BitFast(msg)`. -/
def bitFast (E : Engine) (msg : List Byte) : Nat := finBit E (bitFastRegister E E.initDirect msg)

/-- `TABLE[t]` for an index of 8 bits (R13). -/
def tableAt (E : Engine) (t : Nat) : Nat := (E.table[Fin.ofNat 256 t]).toNat

/-- R190, R191: the start register of the table family, reflected when `refin = 1`. -/
def tableSeed (E : Engine) (seed : Nat) : Nat := if E.refin then reflect seed E.width else seed

/-- R190: one iteration of the loop, `b` the message byte or an augmentation zero. "Defined only for `w mod 8 = 0`"; its
value on any other width is the model's (DESIGN CHOICE, log entry 16). -/
def tblAugStep (E : Engine) (r : Nat) (b : Byte) : Nat :=
  if E.refin then ((r >>> 8) ||| (b.toNat <<< (E.width - 8))) ^^^ tableAt E (slice r 7 0)
  else (((r <<< 8) ||| b.toNat) &&& mask E.width) ^^^ tableAt E (slice r (E.width - 1) (E.width - 8))

/-- R190 `TblAug(msg)`: "the last w/8 bytes are the augmentation zero bytes". "Defined only for `w mod 8 = 0`"; its value
on any other width, which no command reaches (R200, R201), is the model's (DESIGN CHOICE, log entry 16). -/
def tblAug (E : Engine) (msg : List Byte) : Nat :=
  finTbl E ((msg ++ List.replicate (E.width / 8) 0).foldl (tblAugStep E) (tableSeed E E.initNodirect))

/-- R191: one iteration of the loop. "Defined only for `w mod 8 = 0`"; its value on any other width is the model's (DESIGN
CHOICE, log entry 16). -/
def tblFastStep (E : Engine) (r : Nat) (m : Byte) : Nat :=
  if E.refin then (r >>> 8) ^^^ tableAt E (slice r 7 0 ^^^ m.toNat)
  else ((r <<< 8) &&& mask E.width) ^^^ tableAt E (slice r (E.width - 1) (E.width - 8) ^^^ m.toNat)

/-- R191 `TblFast(msg)`. "Defined only for `w mod 8 = 0`"; its value on any other width, which no command reaches (R200,
R201), is the model's (DESIGN CHOICE, log entry 16). -/
def tblFast (E : Engine) (msg : List Byte) : Nat :=
  finTbl E (msg.foldl (tblFastStep E) (tableSeed E E.initDirect))

/-- R185: the value of a kernel on a message. Of a table kernel on a width that is not byte-aligned see log entry 16
(DESIGN CHOICE). -/
def runKernel (k : Kernel) (E : Engine) (msg : List Byte) : Nat :=
  match k with
  | .tblAug => tblAug E msg
  | .tblFast => tblFast E msg
  | .bitAug => bitAug E msg
  | .bitFast => bitFast E msg

/-- R201: the kernels that need a byte-aligned width. -/
def Kernel.isTable : Kernel → Bool
  | .tblAug => true
  | .tblFast => true
  | .bitAug => false
  | .bitFast => false

/-- R200 `Resolve(KSEL)`. -/
def resolve (E : Engine) : KernelSel → Kernel
  | .auto =>
    if E.width % 8 = 0 then (if E.fast then .tblFast else .tblAug)
    else (if E.fast then .bitFast else .bitAug)
  | .tblAug => .tblAug
  | .tblFast => .tblFast
  | .bitAug => .bitAug
  | .bitFast => .bitFast

/-- R201: an explicit table kernel on a width that is not a multiple of 8. -/
def widthNotAligned (E : Engine) (k : Kernel) : Bool := k.isTable && decide (E.width % 8 ≠ 0)

/-- R202 `RunCommon(K)`: "the checks run in this order and the first that fails is the one reported". -/
def runCommon (k : KernelSel) (s : State) : Result :=
  if !s.status.engine || !bufValid s then
    .next (raiseError opRun (.nullInput (!s.status.engine) (!bufValid s)) s)
  else if widthNotAligned (engineOf s) (resolve (engineOf s) k) then .next (raiseError opRun .widthNotAligned s)
  else if bufferOutOfRange s then .next (raiseError opRun .bufferRange s)
  else .next (completeWith opRun (runKernel (resolve (engineOf s) k) (engineOf s) (message s)) s)

/-- RUN.AUTO (R205). -/
def execRunAuto (s : State) : Result := runCommon .auto s

/-- RUN.TBL_AUG (R206). -/
def execRunTblAug (s : State) : Result := runCommon .tblAug s

/-- RUN.TBL_FAST (R207). -/
def execRunTblFast (s : State) : Result := runCommon .tblFast s

/-- RUN.BIT_AUG (R208). -/
def execRunBitAug (s : State) : Result := runCommon .bitAug s

/-- RUN.BIT_FAST (R209). -/
def execRunBitFast (s : State) : Result := runCommon .bitFast s

/-! ### The appended checksum (R275, R276) -/

/-- R276: "least-significant byte first iff `E.REFOUT ^ E.SWAP = 1`". No command reads this: the host forms the
suffix. -/
def suffixLsbFirst (E : Engine) : Bool := E.refout ^^ E.swap

/-- R275, R276: the `w/8` bytes of a checksum in the order they are appended. On a width that is not byte-aligned "no byte
suffix exists" (R277); what this answers there, the low `⌊w/8⌋` bytes, is the model's (DESIGN CHOICE, log entry 14), and
no step and no statement uses the answer there. -/
def suffixBytes (E : Engine) (v : Nat) : List Byte :=
  let lsbFirst := (List.range (E.width / 8)).map fun k => BitVec.ofNat 8 (v >>> (8 * k))
  if suffixLsbFirst E then lsbFirst else lsbFirst.reverse

/-- R275 clause 2: `Residue(E)`, `BitFast` of the same Engine with INIT 0 on `bytes(xorout)`. -/
def residue (E : Engine) : Nat := bitFast { E with initDirect := 0 } (suffixBytes E E.xorout)

end Sys2Proof.Machine
end

