-- ==== Sys2Proof/Machine/Diagnostics.lean ====
section
/-! DEFINITION. DEBUG (R261) and the five SELFTEST commands (R266). -/

namespace Sys2Proof.Machine

/-- R261: the four per-kernel results; the table registers are 0 on a width that is not byte-aligned (R45). -/
def debugResults (E : Engine) (msg : List Byte) : DbgRegs :=
  { tblAug := if E.width % 8 = 0 then word (tblAug E msg) else 0
    tblFast := if E.width % 8 = 0 then word (tblFast E msg) else 0
    bitAug := word (bitAug E msg)
    bitFast := word (bitFast E msg) }

/-- R261: `agree = (ba == bf) and (not tbl or (ta == ba and tf == bf))`. -/
def debugAgree (E : Engine) (msg : List Byte) : Bool :=
  bitAug E msg == bitFast E msg
    && (decide (E.width % 8 ≠ 0) || (tblAug E msg == bitAug E msg && tblFast E msg == bitFast E msg))

/-- R261, R306: how a DEBUG that ran its kernels ends; STATUS keeps the AGREE and DBG_TBL it wrote. -/
def finishDebug (agree dbgTbl : Bool) (err : Option CmdError) (s : State) : State :=
  { s with status := finishStatus opDebug false agree dbgTbl err s.status }

/-- DEBUG (R261). -/
def execDebug (s : State) : Result :=
  if !s.status.engine || !bufValid s then
    .next (raiseError opDebug (.nullInput (!s.status.engine) (!bufValid s)) s)
  else if bufferOutOfRange s then .next (raiseError opDebug .bufferRange s)
  else
    let E := engineOf s
    let msg := message s
    let tbl := decide (E.width % 8 = 0)
    let s1 := { s with dbg := debugResults E msg }
    if debugAgree E msg then .next (finishDebug true tbl none { s1 with result := word (bitFast E msg) })
    else .next (finishDebug false tbl (some .kernelDisagree) s1)

/-- R266: SELFTEST with a kernel select. RESULT is "written whether or not it matches", and `v != E.CHECK` compares
the full 64-bit value. -/
def selftestCommon (k : KernelSel) (s : State) : Result :=
  if !s.status.engine then .next (raiseError opSelftest (.nullInput true false) s)
  else if widthNotAligned (engineOf s) (resolve (engineOf s) k) then .next (raiseError opSelftest .widthNotAligned s)
  else
    let v := runKernel (resolve (engineOf s) k) (engineOf s) rom
    let s1 := { s with result := word v }
    if v = s.eng.params.check.toNat then .next (complete opSelftest s1)
    else .next (raiseError opSelftest .checkMismatch s1)

/-- SELFTEST.AUTO (R266). -/
def execSelftestAuto (s : State) : Result := selftestCommon .auto s

/-- SELFTEST.TBL_AUG (R266). -/
def execSelftestTblAug (s : State) : Result := selftestCommon .tblAug s

/-- SELFTEST.TBL_FAST (R266). -/
def execSelftestTblFast (s : State) : Result := selftestCommon .tblFast s

/-- SELFTEST.BIT_AUG (R266). -/
def execSelftestBitAug (s : State) : Result := selftestCommon .bitAug s

/-- SELFTEST.BIT_FAST (R266). -/
def execSelftestBitFast (s : State) : Result := selftestCommon .bitFast s

end Sys2Proof.Machine
end

