-- ==== Sys2Proof/Machine/Lifecycle.lean ====
section
/-! DEFINITION. The Engine's life (42_lifecycle.md): CREATE, DESTROY and BUILD_TABLE. -/

namespace Sys2Proof.Machine

/-- R172 `BuildTable()`: reads `E.WIDTH`, `E.POLY` and `E.REFIN`. -/
def buildTable (s : State) : State :=
  { s with
    table := tableOf (cfgWidth s.eng.params.cfg) s.eng.params.poly.toNat (cfgRefin s.eng.params.cfg)
    status := { s.status with tableBuilt := true } }

/-- R150, R231: the validator on the staged record. -/
def stagedViolations (s : State) : Violations :=
  validate (cfgWidth s.staged.cfg) s.staged.poly.toNat s.staged.init.toNat s.staged.xorout.toNat

/-- R231: the writes to the Engine registers, from the staged record. -/
def loadEngine (s : State) : State :=
  { s with
    eng :=
      { params := s.staged
        crcmask := word (mask (cfgWidth s.staged.cfg))
        highbit := word (1 <<< (cfgWidth s.staged.cfg - 1))
        initDirect := word (seedDirect s.staged.init.toNat)
        initNodirect := word (seedNondirect (cfgWidth s.staged.cfg) s.staged.poly.toNat s.staged.init.toNat) } }

/-- R231: `x[STATUS].ENGINE <- 1`. -/
def holdEngine (s : State) : State := { s with status := { s.status with engine := true } }

/-- R236: the Engine registers, the table, ENGINE and TABLE_BUILT cleared. -/
def releaseEngine (s : State) : State :=
  { s with
    eng := EngineRegs.zero
    table := zeroTable
    status := { s.status with engine := false, tableBuilt := false } }

/-- CREATE (R231). -/
def execCreate (s : State) : Result :=
  if s.status.engine then .next (raiseError opCreate .engineExists s)
  else if (stagedViolations s).none then .next (complete opCreate (holdEngine (buildTable (loadEngine s))))
  else .next (raiseError opCreate (.parameterInvalid (stagedViolations s)) s)

/-- DESTROY (R236). -/
def execDestroy (s : State) : Result :=
  if s.status.engine then .next (complete opDestroy (releaseEngine s)) else .next (complete opDestroy s)

/-- R240: success with the warning-level event TableExists. -/
def completeWarning (op : BitVec 4) (s : State) : State :=
  { s with status := finishStatus op true false false none s.status }

/-- BUILD_TABLE (R240). -/
def execBuildTable (s : State) : Result :=
  if !s.status.engine then .next (raiseError opBuildTable (.nullInput true false) s)
  else if s.status.tableBuilt then .next (completeWarning opBuildTable s)
  else .next (complete opBuildTable (buildTable s))

end Sys2Proof.Machine
end

