-- ==== Sys2Proof/Machine/Dispatch.lean ====
section
/-! DEFINITION. The dispatch of R343: one command, one meaning. -/

namespace Sys2Proof.Machine

def exec (i : Instr) (s : State) : Host.Outcome State Fault Refusal :=
  match i with
  | .create => Sys2Proof.Machine.execCreate s
  | .destroy => Sys2Proof.Machine.execDestroy s
  | .buildTable => Sys2Proof.Machine.execBuildTable s
  | .runAuto => Sys2Proof.Machine.execRunAuto s
  | .runTblAug => Sys2Proof.Machine.execRunTblAug s
  | .runTblFast => Sys2Proof.Machine.execRunTblFast s
  | .runBitAug => Sys2Proof.Machine.execRunBitAug s
  | .runBitFast => Sys2Proof.Machine.execRunBitFast s
  | .debug => Sys2Proof.Machine.execDebug s
  | .selftestAuto => Sys2Proof.Machine.execSelftestAuto s
  | .selftestTblAug => Sys2Proof.Machine.execSelftestTblAug s
  | .selftestTblFast => Sys2Proof.Machine.execSelftestTblFast s
  | .selftestBitAug => Sys2Proof.Machine.execSelftestBitAug s
  | .selftestBitFast => Sys2Proof.Machine.execSelftestBitFast s
  | .reflect n => Sys2Proof.Machine.execReflect n s

end Sys2Proof.Machine
end

