-- ==== Sys2Proof/Machine/HostPort.lean ====
section
/-! DEFINITION. The host port (20_memory.md): which transactions it accepts, what they read and write, and what the block
answers. And the host's turn: the next operation of its program (R128). -/

namespace Sys2Proof.Machine

/-- R80: the size of a transaction in bytes. -/
def AccessSize.bytes : AccessSize → Nat
  | .b1 => 1
  | .b2 => 2
  | .b4 => 4
  | .b8 => 8

/-- R81: the first offset of the table window. -/
abbrev tableBase : Nat := 0x800
/-- R81: the first offset above the table window. -/
abbrev tableEnd : Nat := 0x1000
/-- R81: the first offset of the message buffer. -/
abbrev bufferBase : Nat := 0x10000

/-- R81 to R85: what a transaction at an offset with a size reaches, in a block whose buffer has `bufBytes` bytes;
`none` is a refused one: a size or an alignment the region does not take, an unmapped offset, or a reach beyond the
buffer. "Misaligned access is never split and never performed partially" (R84). -/
def target? (bufBytes off : Nat) (size : AccessSize) : Option Target :=
  if off < tableEnd then
    if size = .b8 ∧ off % 8 = 0 then
      if off < tableBase then (regAt? off).map .reg
      else some (.table (Fin.ofNat 256 ((off - tableBase) / 8)))
    else none
  else if bufferBase ≤ off ∧ off % size.bytes = 0 ∧ off - bufferBase + size.bytes ≤ bufBytes then
    some (.buffer (off - bufferBase))
  else none

/-- R80, R83, R86 `HostRead(off, size)`. A refused read returns 0. No read changes anything (R92). -/
def hostRead (s : State) (off : BitVec Config.addrBits) (size : AccessSize) : Word × Resp :=
  match target? s.bufBytes off.toNat size with
  | some (.reg r) => (readReg s r, .okay)
  | some (.table i) => (s.table[i], .okay)
  | some (.buffer a) => (word (memRead s a size.bytes), .okay)
  | none => (0, .error)

/-- R80, R83, R86 to R88 `HostWrite(off, size, data)`. A refused write changes nothing. -/
def hostWrite (s : State) (off : BitVec Config.addrBits) (size : AccessSize) (data : Word) : State × Resp :=
  if s.status.busy then (s, .error)
  else
    match target? s.bufBytes off.toNat size with
    | some (.reg r) => if r.access = .ro then (s, .error) else (writeReg s r data, .okay)
    | some (.table _) => (s, .error)
    | some (.buffer a) => (memWrite s a size.bytes data.toNat, .okay)
    | none => (s, .error)

/-- The block's answer, kept for the host (U6: "a model of the block alone records the response"). -/
def record (r : Response) (s : State) : State := { s with responses := r :: s.responses }

/-- R80, R91: one host transaction, performed whole. -/
def hostTransaction (t : HostTxn) (s : State) : State :=
  match t with
  | .read off size => record (.read (hostRead s off size).1 (hostRead s off size).2) s
  | .write off size data => record (.write (hostWrite s off size data).2) (hostWrite s off size data).1

/-- R128: the transaction `R STATUS`. -/
def readStatusTxn : HostTxn := .read (BitVec.ofNat Config.addrBits Reg.status.offset) .b8

/-- The host's operations still to be performed. -/
def setProgram (p : List HostOp) (s : State) : State := { s with program := p }

/-- R80, R128: the host's turn, the next operation of its program. WAIT reads STATUS and stays the next operation while
bit 2 (BUSY) reads 1. A host with nothing left to do does nothing (DESIGN CHOICE, log entry 6). -/
def hostTurn (s : State) : State :=
  match s.program with
  | [] => s
  | .txn t :: rest => setProgram rest (hostTransaction t s)
  | .wait :: rest =>
    if (readReg s .status).getLsbD 2 then hostTransaction readStatusTxn s
    else setProgram rest (hostTransaction readStatusTxn s)

/-- R9, R80: the offset a platform address has in the block's window, `CRC_BASE` being the platform's (U4). -/
def offsetOfAddress? (addr : Nat) : Option (BitVec Config.addrBits) :=
  if Config.crcBase ≤ addr ∧ addr < Config.crcBase + 2 ^ Config.addrBits then
    some (BitVec.ofNat Config.addrBits (addr - Config.crcBase))
  else none

end Sys2Proof.Machine
end

