-- ==== Sys2Proof/Machine/Completion.lean ====
section
/-! DEFINITION. The ENGINE agent (R343) and the choice of who moves next (R18, R95). -/

namespace Sys2Proof.Machine

/-- R343 `Complete()`: decode PENDING, run the command, report IllegalCommand where it does not decode (R126). The
status write of R306 is part of each command's meaning. -/
def completePending (s : State) : Result :=
  match decode s.pending with
  | .ok i => exec i s
  | .error _ => .next (illegalCommand s)

/-- R343: the ENGINE agent's turn. Its one step is "enabled iff `x[STATUS].BUSY = 1`"; with nothing pending it does
nothing (DESIGN CHOICE, log entry 6). -/
def engineTurn (s : State) : Result := if s.status.busy then completePending s else .next s

/-- The turns still to be taken. -/
def setTurns (ts : List Turn) (s : State) : State := { s with turns := ts }

/-- One transition of the block (R95): the agent whose turn it is moves. When no turn is given, a pending command
completes, "a pending command eventually completes" (R343), and otherwise the host moves (DESIGN CHOICE, log entry 1).
The reset input takes one turn (DESIGN CHOICE, log entry 15). -/
def takeTurn (s : State) : Result :=
  match s.turns with
  | .host :: ts => .next (hostTurn (setTurns ts s))
  | .engine :: ts => engineTurn (setTurns ts s)
  | .reset :: ts => .next (resetInput (setTurns ts s))
  | [] => if s.status.busy then completePending s else .next (hostTurn s)

end Sys2Proof.Machine
end

