-- ==== Sys2Proof/Machine/Step.lean ====
section
/-! DEFINITION. One step of the machine, and the state in which its next step runs a given command word. -/

namespace Sys2Proof.Machine

/-- One atomic transition (R91, R95): a host transaction, a completion step of the ENGINE agent, or the reset input. -/
def step (s : State) : Host.Outcome State Fault Refusal := takeTurn s

/-- `s` with the command word `w` accepted and the ENGINE agent's turn next: the word is in PENDING and BUSY is set, as
an accepted CMD write leaves them (R41, R342). The block fetches no instruction from memory (R30, R99; log entry 7). -/
def State.withFetchWord (s : State) (nbits w : Nat) : State :=
  { s with
    pending := BitVec.ofNat 64 (w % 2 ^ nbits)
    status := { s.status with busy := true }
    turns := .engine :: s.turns }

end Sys2Proof.Machine
end

