-- ==== Sys2Proof/Machine/HostProgram.lean ====
section
/-! DEFINITION. The host-program syntax of R128: each form and pseudo-instruction as the operations it stands for. -/

namespace Sys2Proof.Machine

/-- R128 `W <reg>, <value>`. -/
def asmW (r : Reg) (v : Word) : HostOp := .txn (.write (BitVec.ofNat Config.addrBits r.offset) .b8 v)
/-- R128 `R <reg>`. -/
def asmR (r : Reg) : HostOp := .txn (.read (BitVec.ofNat Config.addrBits r.offset) .b8)
/-- R128 `R TABLE[i]`, at `0x800 + 8·i`. -/
def asmRTable (i : Fin Config.tableEntries) : HostOp :=
  .txn (.read (BitVec.ofNat Config.addrBits (tableBase + 8 * i.val)) .b8)
/-- R128 `WB <off>, <value>`. -/
def asmWB (off : BitVec Config.addrBits) (v : Word) : HostOp := .txn (.write off .b1 v)
/-- R128 `WH <off>, <value>`. -/
def asmWH (off : BitVec Config.addrBits) (v : Word) : HostOp := .txn (.write off .b2 v)
/-- R128 `WW <off>, <value>`. -/
def asmWW (off : BitVec Config.addrBits) (v : Word) : HostOp := .txn (.write off .b4 v)
/-- R128 `WD <off>, <value>`. -/
def asmWD (off : BitVec Config.addrBits) (v : Word) : HostOp := .txn (.write off .b8 v)
/-- R128 `RB <off>`. -/
def asmRB (off : BitVec Config.addrBits) : HostOp := .txn (.read off .b1)
/-- R128 `RH <off>`. -/
def asmRH (off : BitVec Config.addrBits) : HostOp := .txn (.read off .b2)
/-- R128 `RW <off>`. -/
def asmRW (off : BitVec Config.addrBits) : HostOp := .txn (.read off .b4)
/-- R128 `RD <off>`. -/
def asmRD (off : BitVec Config.addrBits) : HostOp := .txn (.read off .b8)
/-- R128 `CMD <mnemonic>`: `W CMD, <word of rule R127>`. -/
def asmCmd (i : Instr) : HostOp := asmW .cmd (encode i)
/-- R128 `WAIT`. -/
def asmWait : HostOp := .wait
/-- R128 `LOADMSG <off>, [b0, b1, ...]`: one `WB off+k, byte_k` per byte. -/
def asmLoadMsg (off : Nat) : List Byte → List HostOp
  | [] => []
  | b :: bs => asmWB (BitVec.ofNat Config.addrBits off) (b.setWidth 64) :: asmLoadMsg (off + 1) bs
/-- R128 `CFG w, refin, refout, swap, fast`. -/
def asmCfg (w : Nat) (refin refout swap fast : Bool) : HostOp :=
  asmW .pCfg (word (w ||| refin.toNat <<< 8 ||| refout.toNat <<< 9 ||| swap.toNat <<< 10 ||| fast.toNat <<< 11))

end Sys2Proof.Machine
end

