-- ==== Sys2Proof/Safety.lean ====
section
/-! DEFINITION. The terms claims use: the STATUS a command leaves, the part of the state that is the block's own, the
Engine invariant of R39, and the invariant every step keeps. -/

namespace Sys2Proof.Machine

/-- STATUS after a command with OP value `op` that succeeded and recorded nothing (R306): ENGINE and TABLE_BUILT as
they were, BUSY and every last-command field 0 but LASTOP. -/
def succeeded (op : BitVec 4) (t : Status) : Status :=
  { engine := t.engine, tableBuilt := t.tableBuilt, busy := false, err := false, warn := false, agree := false,
    dbgTbl := false, errcode := 0, peWidth := false, pePoly := false, peInit := false, peXorout := false,
    niEngine := false, niBuffer := false, lastop := op }

/-- STATUS after a command with OP value `op` that raised the error of code `code` (R300, R306), with no PE_* or NI_*
information. -/
def failed (op : BitVec 4) (code : BitVec 8) (t : Status) : Status :=
  { succeeded op t with err := true, errcode := code }

/-- The state less what drives the block and what it has answered: the host's program, the turns and the responses. -/
def State.block (s : State) : State := { s with program := [], turns := [], responses := [] }

/-- What the kernels need of an Engine (R39): a width of 1 to 64, and a polynomial, an xorout and two seeds below
`2^w`. -/
structure EngineSound (E : Engine) : Prop where
  width_pos : 1 ≤ E.width
  width_le : E.width ≤ 64
  poly_lt : E.poly < 2 ^ E.width
  xorout_lt : E.xorout < 2 ^ E.width
  initDirect_lt : E.initDirect < 2 ^ E.width
  initNodirect_lt : E.initNodirect < 2 ^ E.width

/-- R39, R170: every entry of the table is the one R170 gives. -/
def EngineTableRight (E : Engine) : Prop :=
  ∀ i : Fin Config.tableEntries, E.table[i].toNat = tableEntry E.width E.poly E.refin i.val

/-- R39, the block while an Engine is held. -/
structure EngineHeld (s : State) : Prop where
  width_pos : 1 ≤ cfgWidth s.eng.params.cfg
  width_le : cfgWidth s.eng.params.cfg ≤ 64
  poly_fits : s.eng.params.poly.toNat &&& mask (cfgWidth s.eng.params.cfg) = s.eng.params.poly.toNat
  init_fits : s.eng.params.init.toNat &&& mask (cfgWidth s.eng.params.cfg) = s.eng.params.init.toNat
  xorout_fits : s.eng.params.xorout.toNat &&& mask (cfgWidth s.eng.params.cfg) = s.eng.params.xorout.toNat
  crcmask : s.eng.crcmask = word (mask (cfgWidth s.eng.params.cfg))
  highbit : s.eng.highbit = word (1 <<< (cfgWidth s.eng.params.cfg - 1))
  initDirect : s.eng.initDirect = s.eng.params.init
  initNodirect : s.eng.initNodirect =
    word (unfold (cfgWidth s.eng.params.cfg) s.eng.params.poly.toNat s.eng.params.init.toNat)
  table : ∀ i : Fin Config.tableEntries, s.table[i] =
    word (tableValue (cfgWidth s.eng.params.cfg) s.eng.params.poly.toNat (cfgRefin s.eng.params.cfg) i.val)
  built : s.status.tableBuilt = true

/-- R39, the block while no Engine is held. -/
structure EngineAbsent (s : State) : Prop where
  eng : s.eng = EngineRegs.zero
  table : s.table = zeroTable
  built : s.status.tableBuilt = false

/-- The last-command fields a completion can leave (R42, R300, R306, U11): ERR says whether ERRCODE is 0; ERRCODE is one of
the codes that are produced; the PE_* bits come with ParameterInvalid alone, of CREATE; the NI_* bits with NullInput
alone; WARN is BUILD_TABLE's success; AGREE is DEBUG's success and DBG_TBL is DEBUG's. -/
structure LastCommand (t : Status) : Prop where
  err_iff : t.err = true ↔ t.errcode ≠ 0
  code : t.errcode ∈ [0x00, 0x01, 0x02, 0x04, 0x05, 0x06, 0x07, 0x08, 0x09, 0x0A]
  violations : (t.peWidth || t.pePoly || t.peInit || t.peXorout) = true ↔ t.errcode = 0x01
  absent : (t.niEngine || t.niBuffer) = true ↔ t.errcode = 0x02
  warn : t.warn = true → t.errcode = 0 ∧ t.lastop = 0x3
  agree : t.agree = true → t.errcode = 0 ∧ t.lastop = 0x5
  dbgTbl : t.dbgTbl = true → (t.errcode = 0 ∨ t.errcode = 0x09) ∧ t.lastop = 0x5

/-- The invariant of the machine: BUF_BYTES is a size R9 allows; the message buffer is in its canonical form and inside
its bounds; the reserved bits of P_CFG, E_CFG and BUF_CTRL are 0 (R34, R37, R47); the Engine invariant of R39; and the
last-command fields are ones a completion leaves. -/
structure Inv (s : State) : Prop where
  bufBytes_pos : 1 ≤ s.bufBytes
  bufBytes_le : s.bufBytes ≤ Config.maxBufBytes
  memory_wf : s.msgbuf.wf = true
  memory_inside : s.msgbuf.inside s.bufBytes = true
  staged_reserved : s.staged.cfg &&& cfgWritable = s.staged.cfg
  eng_reserved : s.eng.params.cfg &&& cfgWritable = s.eng.params.cfg
  bufCtrl_reserved : s.bufCtrl &&& bufCtrlWritable = s.bufCtrl
  held : s.status.engine = true → EngineHeld s
  absent : s.status.engine = false → EngineAbsent s
  last : LastCommand s.status

/-- A run is safe when the machine never stops: every step answers a next state (R302, R345). -/
def Safe (s : State) : Prop := ∃ t, step s = .next t

end Sys2Proof.Machine
end

