-- ==== Sys2Proof/Certificates/Slice0/Obligations.lean ====
section
/-! DEFINITION. The statements about the block for the provers, in the order of the rules of spec/. -/

open Sys2Proof Sys2Proof.Machine

/-! ### Command words -/

/-- R127: the words of the 15 legal command forms. -/
def Obligations.EncodeGivesTheWordsOfTheTable : Prop :=
  encode .create = 0x0000000000000001 ∧ encode .destroy = 0x0000000000000002 ∧
  encode .buildTable = 0x0000000000000003 ∧ encode .debug = 0x0000000000000005 ∧
  encode .runAuto = 0x0000000000000004 ∧ encode .runTblAug = 0x0000000000000014 ∧
  encode .runTblFast = 0x0000000000000024 ∧ encode .runBitAug = 0x0000000000000034 ∧
  encode .runBitFast = 0x0000000000000044 ∧
  encode .selftestAuto = 0x0000000000000006 ∧ encode .selftestTblAug = 0x0000000000000016 ∧
  encode .selftestTblFast = 0x0000000000000026 ∧ encode .selftestBitAug = 0x0000000000000036 ∧
  encode .selftestBitFast = 0x0000000000000046 ∧
  ∀ n, 1 ≤ n → n ≤ 64 → encode (.reflect n) = BitVec.ofNat 64 (0x7 + (n <<< 8))

/-- R125, R127: written-out words of every family decode to the command they stand for. -/
def Obligations.WrittenOutWordsDecodeToTheirCommands : Prop :=
  decode 0x0000000000000001 = .ok .create ∧ decode 0x0000000000000002 = .ok .destroy ∧
  decode 0x0000000000000003 = .ok .buildTable ∧ decode 0x0000000000000034 = .ok .runBitAug ∧
  decode 0x0000000000000005 = .ok .debug ∧ decode 0x0000000000000026 = .ok .selftestTblFast ∧
  decode 0x0000000000000807 = .ok (.reflect 8) ∧ decode 0x0000000000004007 = .ok (.reflect 64)

/-- R125, R127: decoding the word of a well-formed command gives the command back, through the word decoder and through
the opcode table's numbering. -/
def Obligations.DecodeOfEncodeIsTheCommand : Prop :=
  ∀ i : Instr, i.wellFormed = true →
    decode (encode i) = .ok i ∧ decodeTableWord 64 (encode i).toNat = some i

/-- R125: no bit of a legal word is dropped: the word of the command it decodes to is the word itself. -/
def Obligations.EncodeOfDecodeIsTheWord : Prop :=
  ∀ (c : Word) (i : Instr), decode c = .ok i → encode i = c ∧ i.wellFormed = true

/-- R125: a word is illegal exactly when one of the five tests fails, and a legal word gives its OP, KSEL and RN. -/
def Obligations.DecodeRejectsExactlyTheIllegalWords : Prop :=
  ∀ c : Word,
    let op := c.toNat % 16
    let ksel := c.toNat / 16 % 8
    let rn := c.toNat / 256 % 128
    ((∃ e, decode c = .error e) ↔
      (c.toNat / 2 ^ 15 ≠ 0 ∨ c.toNat / 128 % 2 ≠ 0 ∨ op = 0 ∨ 7 < op ∨
        ((op = 4 ∨ op = 6) ∧ 4 < ksel) ∨ (op ≠ 4 ∧ op ≠ 6 ∧ ksel ≠ 0) ∨ (op ≠ 7 ∧ rn ≠ 0))) ∧
    (∀ i, decode c = .ok i → i.op.toNat = op ∧ i.ksel.toNat = ksel ∧ i.rn.toNat = rn)

/-- R126: a word that does not decode ends in IllegalCommand and changes nothing but STATUS's last-command fields. -/
def Obligations.IllegalCommandChangesNothingElse : Prop :=
  ∀ (s : State) (e : Illegal), decode s.pending = .error e →
    completePending s = .next { s with status := failed (s.pending.extractLsb' 0 4) 0x05 s.status }

/-! ### The step -/

/-- R342, R343: the step of the ENGINE agent runs the command PENDING decodes to when the turn is its own. The other two
clauses are the model's choices, not the spec's: that a pending command completes first when no turn is given (DESIGN
CHOICE, log entry 1), and the state `withFetchWord` prepares (DESIGN CHOICE, log entry 7). -/
def Obligations.StepRunsThePendingCommand : Prop :=
  (∀ (s : State) (i : Instr) (ts : List Turn), s.status.busy = true → decode s.pending = .ok i →
    s.turns = .engine :: ts → step s = exec i (setTurns ts s)) ∧
  (∀ (s : State) (i : Instr), s.status.busy = true → decode s.pending = .ok i →
    s.turns = [] → step s = exec i s) ∧
  (∀ (s : State) (w : Nat) (i : Instr), w < 2 ^ 64 → decode (BitVec.ofNat 64 w) = .ok i →
    step (s.withFetchWord 64 w) =
      exec i { s with pending := BitVec.ofNat 64 w, status := { s.status with busy := true } })

/-- R302, R344, R345: the machine never stops. -/
def Obligations.EveryStepAnswersANextState : Prop := ∀ s : State, Safe s

/-- R343: the ENGINE agent's step is enabled iff BUSY = 1: its turn then performs the completion, which clears BUSY; with
nothing pending it has no step. That a turn given to it then leaves everything but the turns as it is, is the model's
choice (DESIGN CHOICE, log entry 6). -/
def Obligations.EngineHasNoStepWhileIdle : Prop :=
  ∀ (s : State) (ts : List Turn), s.turns = .engine :: ts →
    (s.status.busy = true →
      ∃ t, step s = .next t ∧ completePending (setTurns ts s) = .next t ∧ t.status.busy = false) ∧
    (s.status.busy = false → step s = .next (setTurns ts s))

/-- R306: what every completion step leaves in STATUS, whatever the command word and its outcome. -/
def Obligations.CompletionRewritesTheLastCommandFields : Prop :=
  ∀ s : State, ∃ t, completePending s = .next t ∧
    t.status.busy = false ∧ t.status.lastop = s.pending.extractLsb' 0 4 ∧
    (t.status.err = true ↔ t.status.errcode ≠ 0) ∧
    (t.status.warn = true → s.pending = 0x3 ∧ t.status.err = false) ∧
    (t.status.agree = true → s.pending = 0x5 ∧ t.status.err = false) ∧
    (t.status.dbgTbl = true → s.pending = 0x5) ∧
    ((t.status.peWidth || t.status.pePoly || t.status.peInit || t.status.peXorout) = true ↔ t.status.errcode = 0x01) ∧
    ((t.status.niEngine || t.status.niBuffer) = true ↔ t.status.errcode = 0x02)

/-- R39, R34, R37, R47, R306, U11: every step keeps the invariant of the machine, from every state that meets it. The
canonical form of the message buffer is the model's own (log entry 4), and so is the field that holds BUF_BYTES (log
entry 3). -/
def Obligations.StepKeepsTheMachineInvariant : Prop :=
  ∀ s t : State, Inv s → step s = .next t → Inv t

/-- R52: the invariant holds after reset. -/
def Obligations.ResetMeetsTheMachineInvariant : Prop := Inv State.reset

/-! ### Reset -/

/-- R52, R31, R49: what reset leaves. The message buffer holds the free value at every address, whatever it is. -/
def Obligations.ResetLeavesEveryRegisterZero : Prop :=
  (∀ r : Reg, r ≠ .id → readReg State.reset r = 0) ∧
  readReg State.reset .id = 0x4352434500000007 ∧
  (∀ i : Fin 256, State.reset.table[i] = 0) ∧
  State.reset.pending = 0 ∧ State.reset.status.engine = false ∧ State.reset.status.busy = false ∧
  rom = [0x31, 0x32, 0x33, 0x34, 0x35, 0x36, 0x37, 0x38, 0x39] ∧
  ∀ a, State.reset.byte a = Config.msgbufReset State.reset.resets a

/-- R340: the reset input, from any state. A pending command is abandoned; a held Engine is released; the buffer is
unspecified: it holds the free value of MSGBUF_RESET (log entry 4). -/
def Obligations.ResetInputAbandonsThePendingCommand : Prop :=
  ∀ (s : State) (ts : List Turn), s.turns = .reset :: ts →
    ∃ t, step s = .next t ∧
      (∀ r : Reg, r ≠ .id → readReg t r = 0) ∧ (∀ i : Fin 256, t.table[i] = 0) ∧
      t.pending = 0 ∧ t.status.busy = false ∧ t.status.engine = false ∧ t.status.tableBuilt = false ∧
      ∀ a, t.byte a = Config.msgbufReset t.resets a

/-! ### The host port -/

/-- R80, R82, R83, R84, R85: a read is answered OKAY exactly when its offset is mapped and its size and alignment are the
region's; every other read returns 0 and every other write changes nothing, both with ERROR. -/
def Obligations.OnlyMappedAlignedTransactionsAreAccepted : Prop :=
  ∀ (s : State) (o : BitVec 17) (size : AccessSize),
    let off := o.toNat
    let mapped :=
      (size = .b8 ∧ off % 8 = 0 ∧
        (off ∈ [0x000, 0x010, 0x018, 0x020, 0x028, 0x030, 0x038, 0x040, 0x080, 0x088, 0x090, 0x098, 0x0A0, 0x0A8, 0x0B0,
            0x0B8, 0x0C0, 0x0C8, 0x0D0, 0x100, 0x108, 0x110, 0x118, 0x120, 0x128, 0x130, 0x140, 0x148, 0x150, 0x158] ∨
          (0x800 ≤ off ∧ off < 0x1000))) ∨
      (0x10000 ≤ off ∧ off % size.bytes = 0 ∧ off - 0x10000 + size.bytes ≤ s.bufBytes)
    ((hostRead s o size).2 = .okay ↔ mapped) ∧
    (¬ mapped → hostRead s o size = (0, .error) ∧ ∀ v, hostWrite s o size v = (s, .error))

/-- R32, R86: the register map by numbers and fields: what a read at each offset answers, CMD reading 0, and the offsets
that refuse every write; the same by the model's names; and the table. What STATUS reads as is R42's
(`StatusWordHasTheLayoutOfTheRegister`). -/
def Obligations.RegistersReadBackAndReadOnlyOnesRefuseWrites : Prop :=
  ∀ s : State,
    (∀ p ∈ [((0x000 : BitVec 17), (0x4352434500000007 : Word)),
        (0x010, s.staged.cfg), (0x018, s.staged.poly), (0x020, s.staged.init), (0x028, s.staged.xorout),
        (0x030, s.staged.check), (0x038, s.staged.name), (0x040, s.staged.userdata),
        (0x080, s.eng.params.cfg), (0x088, s.eng.params.poly), (0x090, s.eng.params.init),
        (0x098, s.eng.params.xorout), (0x0A0, s.eng.params.check), (0x0A8, s.eng.params.name),
        (0x0B0, s.eng.params.userdata), (0x0B8, s.eng.crcmask), (0x0C0, s.eng.highbit), (0x0C8, s.eng.initDirect),
        (0x0D0, s.eng.initNodirect), (0x100, 0), (0x108, statusWord s.status), (0x110, s.result),
        (0x118, s.dbg.tblAug), (0x120, s.dbg.tblFast), (0x128, s.dbg.bitAug), (0x130, s.dbg.bitFast),
        (0x140, s.bufAddr), (0x148, s.bufLen), (0x150, s.bufCtrl), (0x158, s.reflIn)],
      hostRead s p.1 .b8 = (p.2, .okay)) ∧
    (∀ o ∈ [(0x000 : BitVec 17), 0x080, 0x088, 0x090, 0x098, 0x0A0, 0x0A8, 0x0B0, 0x0B8, 0x0C0, 0x0C8, 0x0D0,
        0x108, 0x110, 0x118, 0x120, 0x128, 0x130], ∀ v, hostWrite s o .b8 v = (s, .error)) ∧
    (∀ r : Reg, hostRead s (BitVec.ofNat 17 r.offset) .b8 = (readReg s r, .okay)) ∧
    readReg s .cmd = 0 ∧
    (∀ i : Fin 256, hostRead s (BitVec.ofNat 17 (0x800 + 8 * i.val)) .b8 = (s.table[i], .okay)) ∧
    (∀ (r : Reg) (v : Word), r.access = .ro → hostWrite s (BitVec.ofNat 17 r.offset) .b8 v = (s, .error)) ∧
    (∀ (i : Fin 256) (v : Word), hostWrite s (BitVec.ofNat 17 (0x800 + 8 * i.val)) .b8 v = (s, .error))

/-- R87, R32, R33: an accepted write to an RW register stores its writable bits and changes no other register, no table
entry, no byte of the buffer and no pending command; and by numbers, the field each offset of an RW register stores
to. -/
def Obligations.WritableBitsAreStoredAndReadBack : Prop :=
  (∀ (s : State) (v : Word), s.status.busy = false →
    ∀ p ∈ [((0x010 : BitVec 17), { s with staged := { s.staged with cfg := v &&& 0xF7F } }),
        (0x018, { s with staged := { s.staged with poly := v } }),
        (0x020, { s with staged := { s.staged with init := v } }),
        (0x028, { s with staged := { s.staged with xorout := v } }),
        (0x030, { s with staged := { s.staged with check := v } }),
        (0x038, { s with staged := { s.staged with name := v } }),
        (0x040, { s with staged := { s.staged with userdata := v } }),
        (0x140, { s with bufAddr := v }), (0x148, { s with bufLen := v }),
        (0x150, { s with bufCtrl := v &&& 0x1 }), (0x158, { s with reflIn := v })],
      hostWrite s p.1 .b8 v = (p.2, .okay)) ∧
  ∀ (s : State) (v : Word) (r : Reg) (m : Word), s.status.busy = false →
    (r, m) ∈ [(Reg.pCfg, (0xF7F : Word)), (.pPoly, BitVec.allOnes 64), (.pInit, BitVec.allOnes 64),
      (.pXorout, BitVec.allOnes 64), (.pCheck, BitVec.allOnes 64), (.pName, BitVec.allOnes 64),
      (.pUserdata, BitVec.allOnes 64), (.bufAddr, BitVec.allOnes 64), (.bufLen, BitVec.allOnes 64),
      (.bufCtrl, 0x1), (.reflIn, BitVec.allOnes 64)] →
    ∃ t, hostWrite s (BitVec.ofNat 17 r.offset) .b8 v = (t, .okay) ∧
      readReg t r = v &&& m ∧ (∀ r', r' ≠ r → readReg t r' = readReg s r') ∧
      t.table = s.table ∧ (∀ a, t.byte a = s.byte a) ∧ t.pending = s.pending ∧ t.status = s.status

/-- R41: an accepted CMD write latches PENDING and sets BUSY and nothing else, and nothing a host transaction does from
then on changes the block; CMD reads 0. -/
def Obligations.CmdWriteLatchesThePendingCommand : Prop :=
  ∀ (s : State) (v : Word),
    (s.status.busy = false →
      let t := { s with pending := v, status := { s.status with busy := true } }
      hostWrite s 0x100 .b8 v = (t, .okay) ∧ ∀ x, (hostTransaction x t).block = t.block) ∧
    hostRead s 0x100 .b8 = (0, .okay)

/-- R88: the busy lockout: every write is refused and changes nothing, and a read answers what it would answer if the
command were not pending, STATUS apart, whose BUSY bit alone differs. So no transaction changes the block. -/
def Obligations.BusyRefusesEveryWriteAndNoRead : Prop :=
  ∀ (s : State) (o : BitVec 17) (size : AccessSize), s.status.busy = true →
    (∀ v, hostWrite s o size v = (s, .error)) ∧
    (o ≠ 0x108 → hostRead s o size = hostRead { s with status := { s.status with busy := false } } o size) ∧
    ((hostRead s 0x108 .b8).1 = (hostRead { s with status := { s.status with busy := false } } 0x108 .b8).1 ||| 0x4) ∧
    ∀ x, (hostTransaction x s).block = s.block

/-- R89, R14, R83: byte lane `k` of a transaction with the message buffer is the byte at its address plus `k` and carries
bits `8k+7 : 8k`; no other byte and nothing else changes; and what was written is read back. -/
def Obligations.BufferTransactionsAreLittleEndian : Prop :=
  ∀ (s : State) (o : BitVec 17) (size : AccessSize) (v : Word),
    0x10000 ≤ o.toNat → o.toNat % size.bytes = 0 → o.toNat - 0x10000 + size.bytes ≤ s.bufBytes →
    let a := o.toNat - 0x10000
    (∀ k, k < size.bytes → (hostRead s o size).1.extractLsb' (8 * k) 8 = s.byte (a + k)) ∧
    (hostRead s o size).1.toNat < 2 ^ (8 * size.bytes) ∧
    (s.status.busy = false →
      ∃ t, hostWrite s o size v = (t, .okay) ∧
        (∀ k, k < size.bytes → t.byte (a + k) = v.extractLsb' (8 * k) 8) ∧
        (∀ b, (b < a ∨ a + size.bytes ≤ b) → t.byte b = s.byte b) ∧
        t = { s with msgbuf := t.msgbuf } ∧
        (hostRead t o size).1.toNat = v.toNat % 2 ^ (8 * size.bytes))

/-- R92: no read has a side effect (but the answer the host gets), and a write to anything but CMD may be repeated without
changing anything more. The form of the buffer is the model's own (log entry 4). -/
def Obligations.ReadsAndRepeatedWritesHaveNoSideEffect : Prop :=
  ∀ (s : State) (o : BitVec 17) (size : AccessSize) (v : Word), s.msgbuf.wf = true →
    (hostTransaction (.read o size) s).block = s.block ∧
    (o ≠ 0x100 → (hostWrite (hostWrite s o size v).1 o size v).1 = (hostWrite s o size v).1)

/-- R88, R96 (c): however many host transactions the host performs while a command is pending, the completion that
follows does to the block what it would have done at once. -/
def Obligations.HostTurnsWhileBusyDoNotChangeTheCompletion : Prop :=
  ∀ (n : Nat) (s : State) (ts : List Turn), s.status.busy = true →
    s.turns = List.replicate n .host ++ .engine :: ts →
    ∃ t u, Host.Core.run Sys2Proof.core (n + 1) s = .next t ∧ completePending s = .next u ∧
      t.block = u.block ∧ t.turns = ts

/-- R342: the life of a command: a CMD write with BUSY = 0 is accepted, writes are refused while it is pending, and the
completion step runs it; a CMD write with BUSY = 1 accepts nothing. -/
def Obligations.CommandIsAcceptedPendsAndCompletes : Prop :=
  (∀ (s : State) (i : Instr) (p : List HostOp) (ts : List Turn),
    i.wellFormed = true → s.status.busy = false → s.program = asmCmd i :: p → s.turns = .host :: .engine :: ts →
    let s1 := { s with program := p, turns := .engine :: ts, pending := encode i,
                       status := { s.status with busy := true }, responses := .write .okay :: s.responses }
    step s = .next s1 ∧ (∀ o size v, hostWrite s1 o size v = (s1, .error)) ∧ step s1 = exec i (setTurns ts s1)) ∧
  (∀ (s : State) (v : Word), s.status.busy = true → hostWrite s 0x100 .b8 v = (s, .error))

/-- R128, R343: a host that polls with WAIT goes on: with no turn given, the pending command completes and the poll after
it reads BUSY = 0. The order of the two agents where no turn is given is the model's choice (log entry 1). -/
def Obligations.WaitEndsAfterTheCompletion : Prop :=
  ∀ (s : State) (p : List HostOp), s.status.busy = true → s.turns = [] → s.program = .wait :: p →
    ∃ t u, completePending s = .next t ∧ Host.Core.run Sys2Proof.core 2 s = .next u ∧
      u.program = p ∧ u.block = t.block ∧ u.status.busy = false

/-- R42: the word a host reads from STATUS. -/
def Obligations.StatusWordHasTheLayoutOfTheRegister : Prop :=
  ∀ t : Status,
    (statusWord t).getLsbD 0 = t.engine ∧ (statusWord t).getLsbD 1 = t.tableBuilt ∧ (statusWord t).getLsbD 2 = t.busy ∧
    (statusWord t).getLsbD 3 = t.err ∧ (statusWord t).getLsbD 4 = t.warn ∧ (statusWord t).getLsbD 5 = t.agree ∧
    (statusWord t).getLsbD 6 = t.dbgTbl ∧ (statusWord t).getLsbD 7 = false ∧
    (statusWord t).extractLsb' 8 8 = t.errcode ∧
    (statusWord t).getLsbD 16 = t.peWidth ∧ (statusWord t).getLsbD 17 = t.pePoly ∧
    (statusWord t).getLsbD 18 = t.peInit ∧ (statusWord t).getLsbD 19 = t.peXorout ∧
    (statusWord t).getLsbD 20 = t.niEngine ∧ (statusWord t).getLsbD 21 = t.niBuffer ∧
    (statusWord t).extractLsb' 22 2 = 0 ∧ (statusWord t).extractLsb' 24 4 = t.lastop ∧
    (statusWord t).extractLsb' 28 36 = 0

/-! ### REFLECT and the reflector -/

/-- R180, R155: REFLECT `n` (word `0x7 + (n << 8)`) for `1 ≤ n ≤ 64` writes the low `n` bits of REFL_IN reversed to RESULT, bit `i` being bit
`n-1-i`, and every other bit 0; any other `n` is InvalidOperand. It needs no Engine. -/
def Obligations.ReflectReversesTheLowBits : Prop :=
  ∀ (n : Nat) (s : State),
    (1 ≤ n → n ≤ 64 →
      encode (.reflect n) = BitVec.ofNat 64 (0x7 + (n <<< 8)) ∧
      ∃ v : Word, exec (.reflect n) s = .next { s with result := v, status := succeeded 0x7 s.status } ∧
        ∀ i, i < 64 → v.getLsbD i = (decide (i < n) && s.reflIn.getLsbD (n - 1 - i))) ∧
    (n = 0 ∨ 64 < n → exec (.reflect n) s = .next { s with status := failed 0x7 0x0A s.status })

/-- R156: the laws of the reflector. -/
def Obligations.ReflectorIsAnXorLinearInvolution : Prop :=
  ∀ n, 1 ≤ n → n ≤ 64 →
    (∀ x, x < 2 ^ n → reflect (reflect x n) n = x) ∧
    (∀ x, reflect x n = reflect (x &&& mask n) n) ∧
    reflect 0 n = 0 ∧ reflect (mask n) n = mask n ∧
    (∀ a b, reflect (a ^^^ b) n = reflect a n ^^^ reflect b n)

/-! ### CREATE, DESTROY, BUILD_TABLE -/

/-- R231, R38: CREATE from EMPTY on a record that passes the four checks copies the record, derives the masks and both
seeds, builds the table, and changes nothing else. -/
def Obligations.CreateBuildsTheEngineOfAValidRecord : Prop :=
  ∀ s : State,
    let w := cfgWidth s.staged.cfg
    s.status.engine = false → 1 ≤ w → w ≤ 64 →
    s.staged.poly.toNat < 2 ^ w → s.staged.init.toNat < 2 ^ w → s.staged.xorout.toNat < 2 ^ w →
    ∃ t, exec .create s = .next t ∧
      t.eng.params = s.staged ∧
      t.eng.crcmask.toNat = 2 ^ w - 1 ∧ t.eng.highbit.toNat = 2 ^ (w - 1) ∧
      t.eng.initDirect = s.staged.init ∧
      t.eng.initNodirect.toNat = unfold w s.staged.poly.toNat s.staged.init.toNat ∧
      (∀ i : Fin 256, t.table[i].toNat =
        if w < 8 then 0 else tableEntry w s.staged.poly.toNat (cfgRefin s.staged.cfg) i.val) ∧
      t.status = { succeeded 0x1 s.status with engine := true, tableBuilt := true } ∧
      { t with eng := s.eng, table := s.table, status := s.status } = s

/-- R151, R152, R153, R154, R304: CREATE from EMPTY on a record that fails a check builds nothing and reports every
violation by its bit; above width 64 every value fits the mask. -/
def Obligations.CreateReportsEveryViolationAndBuildsNothing : Prop :=
  ∀ s : State,
    let w := cfgWidth s.staged.cfg
    let fits := fun v : Word => decide (64 < w ∨ v.toNat < 2 ^ w)
    s.status.engine = false →
    ¬ (1 ≤ w ∧ w ≤ 64 ∧ fits s.staged.poly = true ∧ fits s.staged.init = true ∧ fits s.staged.xorout = true) →
    exec .create s = .next { s with status := { failed 0x1 0x01 s.status with
      peWidth := !decide (1 ≤ w ∧ w ≤ 64), pePoly := !fits s.staged.poly,
      peInit := !fits s.staged.init, peXorout := !fits s.staged.xorout } }

/-- R233: CREATE while an Engine is held. -/
def Obligations.CreateWhileReadyLeavesTheEngine : Prop :=
  ∀ s : State, s.status.engine = true → exec .create s = .next { s with status := failed 0x1 0x06 s.status }

/-- R236: DESTROY (word 0x2) clears the Engine registers, the table, ENGINE and TABLE_BUILT when an Engine is held, and is no error
when none is. RESULT, the DBG registers, the staging registers and the buffer stay. -/
def Obligations.DestroyReleasesTheEngine : Prop :=
  encode .destroy = 0x2 ∧
  ∀ s : State,
    (s.status.engine = true →
      ∃ t, exec .destroy s = .next t ∧
        t.eng = EngineRegs.zero ∧ (∀ i : Fin 256, t.table[i] = 0) ∧
        t.status = { succeeded 0x2 s.status with engine := false, tableBuilt := false } ∧
        { t with eng := s.eng, table := s.table, status := s.status } = s) ∧
    (s.status.engine = false → exec .destroy s = .next { s with status := succeeded 0x2 s.status })

/-- R240, R172: BUILD_TABLE (word 0x3) on a held Engine whose table exists is a success with WARN that changes nothing else; without
an Engine it is NullInput; on an Engine without its table it builds it. -/
def Obligations.BuildTableIsIdempotent : Prop :=
  encode .buildTable = 0x3 ∧
  ∀ s : State,
    (s.status.engine = true → s.status.tableBuilt = true →
      exec .buildTable s = .next { s with status := { succeeded 0x3 s.status with warn := true } }) ∧
    (s.status.engine = false →
      exec .buildTable s = .next { s with status := { failed 0x3 0x02 s.status with niEngine := true } }) ∧
    (s.status.engine = true → s.status.tableBuilt = false →
      ∃ t, exec .buildTable s = .next t ∧
        (∀ i : Fin 256, t.table[i] = word (tableValue (cfgWidth s.eng.params.cfg) s.eng.params.poly.toNat
          (cfgRefin s.eng.params.cfg) i.val)) ∧
        t.status = { succeeded 0x3 s.status with tableBuilt := true } ∧
        { t with table := s.table, status := s.status } = s)

/-- R37, R230, R237: from a state that meets the invariant, the only steps that change the Engine registers, the table or
ENGINE are the reset input, a CREATE that succeeds from EMPTY, and a DESTROY. -/
def Obligations.EngineChangesOnlyByCreateDestroyAndReset : Prop :=
  ∀ s t : State, Inv s → step s = .next t →
    (t.eng ≠ s.eng ∨ t.table ≠ s.table ∨ t.status.engine ≠ s.status.engine) →
    (∃ ts, s.turns = .reset :: ts) ∨
    (s.status.busy = true ∧ s.pending = 0x1 ∧ s.status.engine = false ∧ t.status.engine = true ∧
      t.eng.params = s.staged) ∨
    (s.status.busy = true ∧ s.pending = 0x2 ∧ s.status.engine = true ∧ t.status.engine = false ∧
      t.eng = EngineRegs.zero)

/-! ### RUN -/

/-- R46, R90: the message is the `BUF_LEN` bytes of the buffer from `BUF_ADDR`, in increasing offset order. -/
def Obligations.MessageIsTheDescribedBytesInOrder : Prop :=
  ∀ s : State, (message s).length = s.bufLen.toNat ∧
    ∀ k, k < s.bufLen.toNat → (message s)[k]? = some (s.byte (s.bufAddr.toNat + k))

/-- R200, R202, R203: a RUN whose checks pass writes its kernel's value to RESULT and changes nothing else but STATUS: the
explicit kernels, and AUTO by the width and `E.FAST`. -/
def Obligations.RunWritesTheKernelValueToResult : Prop :=
  ∀ s : State, s.status.engine = true → s.bufCtrl.getLsbD 0 = true →
    s.bufAddr.toNat + s.bufLen.toNat ≤ s.bufBytes →
    let E := engineOf s
    let msg := message s
    let ends := fun v : Nat => { s with result := word v, status := succeeded 0x4 s.status }
    exec .runBitAug s = .next (ends (bitAug E msg)) ∧
    exec .runBitFast s = .next (ends (bitFast E msg)) ∧
    (E.width % 8 = 0 →
      exec .runTblAug s = .next (ends (tblAug E msg)) ∧
      exec .runTblFast s = .next (ends (tblFast E msg)) ∧
      exec .runAuto s = .next (ends (if E.fast then tblFast E msg else tblAug E msg))) ∧
    (E.width % 8 ≠ 0 → exec .runAuto s = .next (ends (if E.fast then bitFast E msg else bitAug E msg)))

/-- R201, R202, R303: the errors of RUN in the order of its checks, each leaving everything but STATUS as it is. -/
def Obligations.RunReportsTheFirstFailingCheck : Prop :=
  ∀ (s : State) (i : Instr), i ∈ [.runAuto, .runTblAug, .runTblFast, .runBitAug, .runBitFast] →
    let E := engineOf s
    let valid := s.bufCtrl.getLsbD 0
    let isTable := decide (i = .runTblAug ∨ i = .runTblFast)
    ((s.status.engine && valid) = false →
      exec i s = .next { s with status := { failed 0x4 0x02 s.status with
        niEngine := !s.status.engine, niBuffer := !valid } }) ∧
    (s.status.engine = true → valid = true → isTable = true → E.width % 8 ≠ 0 →
      exec i s = .next { s with status := failed 0x4 0x07 s.status }) ∧
    (s.status.engine = true → valid = true → (isTable = true → E.width % 8 = 0) →
      s.bufBytes < s.bufAddr.toNat + s.bufLen.toNat →
      exec i s = .next { s with status := failed 0x4 0x08 s.status })

/-- R198: RUN is a function of the Engine and the message: two runs that succeed with the same Engine and the same message
bytes leave the same RESULT, whatever else differs; and a RUN leaves what the next one reads as it was, so that repeating
it ends as before. -/
def Obligations.RepeatedRunGivesTheSameResult : Prop :=
  ∀ (s t : State) (i : Instr), i ∈ [.runAuto, .runTblAug, .runTblFast, .runBitAug, .runBitFast] →
    exec i s = .next t →
    (∀ s' t', exec i s' = .next t' → engineOf s' = engineOf s → message s' = message s →
      t.status.err = false → t'.status.err = false → t'.result = t.result) ∧
    (∃ u, exec i t = .next u ∧ u.result = t.result ∧ u.status = t.status) ∧
    engineOf t = engineOf s ∧ message t = message s ∧ t.eng = s.eng

/-! ### DEBUG and SELFTEST -/

/-- R261: DEBUG (word 0x5) with its checks passed stores the four results, and reports agreement with the common value in RESULT or
KernelDisagree with RESULT kept; without an Engine or a valid descriptor it is NullInput, out of range BufferRange. -/
def Obligations.DebugComparesEveryApplicableKernel : Prop :=
  encode .debug = 0x5 ∧
  ∀ s : State,
    let E := engineOf s
    let msg := message s
    let valid := s.bufCtrl.getLsbD 0
    let tbl := decide (E.width % 8 = 0)
    let d := { tblAug := if tbl then word (tblAug E msg) else 0, tblFast := if tbl then word (tblFast E msg) else 0,
               bitAug := word (bitAug E msg), bitFast := word (bitFast E msg) : DbgRegs }
    let agree := bitAug E msg = bitFast E msg ∧
      (tbl = true → tblAug E msg = bitAug E msg ∧ tblFast E msg = bitFast E msg)
    ((s.status.engine && valid) = false →
      exec .debug s = .next { s with status := { failed 0x5 0x02 s.status with
        niEngine := !s.status.engine, niBuffer := !valid } }) ∧
    (s.status.engine = true → valid = true → s.bufBytes < s.bufAddr.toNat + s.bufLen.toNat →
      exec .debug s = .next { s with status := failed 0x5 0x08 s.status }) ∧
    (s.status.engine = true → valid = true → s.bufAddr.toNat + s.bufLen.toNat ≤ s.bufBytes → agree →
      exec .debug s = .next { s with dbg := d, result := word (bitFast E msg),
                                     status := { succeeded 0x5 s.status with agree := true, dbgTbl := tbl } }) ∧
    (s.status.engine = true → valid = true → s.bufAddr.toNat + s.bufLen.toNat ≤ s.bufBytes → ¬ agree →
      exec .debug s = .next { s with dbg := d, status := { failed 0x5 0x09 s.status with dbgTbl := tbl } })

/-- R266: the five SELFTEST forms (words 0x06 to 0x46): RESULT is the kernel's value on "123456789" whether or not it matches E_CHECK, and a
mismatch is CheckMismatch; without an Engine NullInput, an explicit table kernel on an unaligned width
WidthNotAligned. -/
def Obligations.SelftestComparesTheReferenceVector : Prop :=
  [Instr.selftestAuto, .selftestTblAug, .selftestTblFast, .selftestBitAug, .selftestBitFast].map encode =
    [0x06, 0x16, 0x26, 0x36, 0x46] ∧
  ∀ s : State,
    let E := engineOf s
    let v9 : List Byte := [0x31, 0x32, 0x33, 0x34, 0x35, 0x36, 0x37, 0x38, 0x39]
    let ends := fun v : Nat => { s with
      result := word v,
      status := if v = s.eng.params.check.toNat then succeeded 0x6 s.status else failed 0x6 0x04 s.status }
    (s.status.engine = false → ∀ i ∈ [Instr.selftestAuto, .selftestTblAug, .selftestTblFast, .selftestBitAug,
        .selftestBitFast],
      exec i s = .next { s with status := { failed 0x6 0x02 s.status with niEngine := true } }) ∧
    (s.status.engine = true →
      exec .selftestBitAug s = .next (ends (bitAug E v9)) ∧ exec .selftestBitFast s = .next (ends (bitFast E v9))) ∧
    (s.status.engine = true → E.width % 8 = 0 →
      exec .selftestTblAug s = .next (ends (tblAug E v9)) ∧ exec .selftestTblFast s = .next (ends (tblFast E v9)) ∧
      exec .selftestAuto s = .next (ends (if E.fast then tblFast E v9 else tblAug E v9))) ∧
    (s.status.engine = true → E.width % 8 ≠ 0 →
      exec .selftestTblAug s = .next { s with status := failed 0x6 0x07 s.status } ∧
      exec .selftestTblFast s = .next { s with status := failed 0x6 0x07 s.status } ∧
      exec .selftestAuto s = .next (ends (if E.fast then bitFast E v9 else bitAug E v9)))

/-! ### What commands change and read -/

/-- R203, R232, R236, R45, R307: the frame of every command: what none of them writes, and which of them may write the
Engine, the table, RESULT and the DBG registers. No command stores to the message buffer. -/
def Obligations.CommandsChangeOnlyWhatTheirRulesName : Prop :=
  ∀ (i : Instr) (s t : State), exec i s = .next t →
    (t.staged = s.staged ∧ t.bufAddr = s.bufAddr ∧ t.bufLen = s.bufLen ∧ t.bufCtrl = s.bufCtrl ∧ t.reflIn = s.reflIn ∧
      t.pending = s.pending ∧ t.bufBytes = s.bufBytes ∧ t.resets = s.resets ∧ t.program = s.program ∧
      t.turns = s.turns ∧ t.responses = s.responses ∧ ∀ a, t.byte a = s.byte a) ∧
    (i ≠ .create → i ≠ .destroy → t.eng = s.eng ∧ t.status.engine = s.status.engine) ∧
    (i ≠ .create → i ≠ .destroy → i ≠ .buildTable → t.table = s.table ∧ t.status.tableBuilt = s.status.tableBuilt) ∧
    (i = .create ∨ i = .destroy ∨ i = .buildTable → t.result = s.result) ∧
    (i ≠ .debug → t.dbg = s.dbg)

/-- R44: RESULT changes only by the reset input or by the completion of a RUN, DEBUG, SELFTEST or REFLECT; and with an
error only by a SELFTEST that reports CheckMismatch. -/
def Obligations.ResultIsWrittenOnlyByTheCommandsThatProduceOne : Prop :=
  ∀ s t : State, step s = .next t → t.result ≠ s.result →
    (∃ ts, s.turns = .reset :: ts) ∨
    (s.status.busy = true ∧ s.pending.extractLsb' 0 4 ∈ [(0x4 : BitVec 4), 0x5, 0x6, 0x7] ∧
      (t.status.err = true → s.pending.extractLsb' 0 4 = 0x6 ∧ t.status.errcode = 0x04))

/-- R45: the DBG registers change only by the reset input or by a DEBUG that passed its checks. -/
def Obligations.DebugRegistersAreWrittenOnlyByDebug : Prop :=
  ∀ s t : State, step s = .next t → t.dbg ≠ s.dbg →
    (∃ ts, s.turns = .reset :: ts) ∨
    (s.status.busy = true ∧ s.pending = 0x5 ∧ s.status.engine = true ∧ s.bufCtrl.getLsbD 0 = true ∧
      s.bufAddr.toNat + s.bufLen.toNat ≤ s.bufBytes)

/-- R36, R34: the name, the user payload and SWAP reach no result: two states that differ in them alone give, under every
command, the same RESULT, STATUS, DBG registers, table and derived Engine registers. -/
def Obligations.LabelPayloadAndSwapReachNoResult : Prop :=
  ∀ (i : Instr) (s : State) (n u n' u' x x' : Word),
    let s' := { s with
      staged := { s.staged with name := n, userdata := u, cfg := s.staged.cfg ^^^ (x &&& 0x400) },
      eng := { s.eng with params := { s.eng.params with name := n', userdata := u',
                                                        cfg := s.eng.params.cfg ^^^ (x' &&& 0x400) } } }
    ∃ t t', exec i s = .next t ∧ exec i s' = .next t' ∧
      t'.result = t.result ∧ t'.status = t.status ∧ t'.dbg = t.dbg ∧ t'.table = t.table ∧
      t'.eng.crcmask = t.eng.crcmask ∧ t'.eng.highbit = t.eng.highbit ∧
      t'.eng.initDirect = t.eng.initDirect ∧ t'.eng.initNodirect = t.eng.initNodirect

/-! ### Division steps, seeds and the table -/

/-- R158: the three division steps in arithmetic, and what the rule says of them. -/
def Obligations.DivisionStepsShiftAndSubtractThePolynomial : Prop :=
  ∀ w poly r : Nat, 1 ≤ w → w ≤ 64 → poly < 2 ^ w → r < 2 ^ w →
    zStep w poly r = (2 * r % 2 ^ w) ^^^ (if 2 ^ (w - 1) ≤ r then poly else 0) ∧
    (∀ b : Bool, aStep w poly r b = ((2 * r + b.toNat) % 2 ^ w) ^^^ (if 2 ^ (w - 1) ≤ r then poly else 0)) ∧
    (∀ b : Bool, fStep w poly r b = (2 * r % 2 ^ w) ^^^ (if (decide (2 ^ (w - 1) ≤ r) ^^ b) = true then poly else 0)) ∧
    zStep w poly r = aStep w poly r false ∧ zStep w poly r = fStep w poly r false ∧
    zStep w poly r < 2 ^ w ∧ (∀ b, aStep w poly r b < 2 ^ w) ∧ (∀ b, fStep w poly r b < 2 ^ w)

/-- R162: for an odd polynomial ZStep is a bijection on the `w`-bit values, Unfold is the inverse of Fold, and the fold of
the non-direct seed of INIT is its direct seed. -/
def Obligations.UnfoldInvertsFoldForOddPolynomials : Prop :=
  ∀ w poly : Nat, 1 ≤ w → w ≤ 64 → poly < 2 ^ w → poly % 2 = 1 →
    Set.BijOn (zStep w poly) { r | r < 2 ^ w } { r | r < 2 ^ w } ∧
    ∀ v, v < 2 ^ w → unfold w poly (fold w poly v) = v ∧ fold w poly (unfold w poly v) = v ∧
      fold w poly (seedNondirect w poly v) = seedDirect v

/-- R163: for an even polynomial ZStep is not injective and Fold is not onto. -/
def Obligations.EvenPolynomialsHaveSeedsWithNoNonDirectForm : Prop :=
  ∀ w poly : Nat, 1 ≤ w → w ≤ 64 → poly < 2 ^ w → poly % 2 = 0 →
    ¬ Set.InjOn (zStep w poly) { r | r < 2 ^ w } ∧
    ∃ v, v < 2 ^ w ∧ ∀ u, u < 2 ^ w → fold w poly u ≠ v

/-- R173: the laws of the table. -/
def Obligations.TableEntriesAreLinearInTheByte : Prop :=
  ∀ w poly : Nat, 8 ≤ w → w ≤ 64 → poly < 2 ^ w →
    (∀ refin, tableEntry w poly refin 0 = 0) ∧
    (∀ refin i j, i < 256 → j < 256 →
      tableEntry w poly refin (i ^^^ j) = tableEntry w poly refin i ^^^ tableEntry w poly refin j) ∧
    tableEntry w poly false 1 = poly ∧ tableEntry w poly true 0x80 = reflect poly w

/-! ### The laws of the kernels -/

/-- R192: on a byte-aligned width each table kernel returns what the bit-by-bit kernel of its family returns. -/
def Obligations.TableKernelsAgreeWithBitKernels : Prop :=
  ∀ E : Engine, EngineSound E → E.width % 8 = 0 → EngineTableRight E →
    ∀ msg, tblAug E msg = bitAug E msg ∧ tblFast E msg = bitFast E msg

/-- R193: the augmented result is the fast result from the folded seed, and the families agree on every message exactly
when `Fold(E.INIT_NODIRECT) = E.INIT_DIRECT`. -/
def Obligations.AugmentedResultIsTheFastResultFromTheFoldedSeed : Prop :=
  ∀ E : Engine, EngineSound E →
    (∀ msg, bitAug E msg = bitFast { E with initDirect := fold E.width E.poly E.initNodirect } msg) ∧
    ((∀ msg, bitAug E msg = bitFast E msg) ↔ fold E.width E.poly E.initNodirect = E.initDirect)

/-- R194, R261: on a machine that meets the invariant, with an Engine held and a message in range: `Fold(Unfold(INIT)) =
INIT` holds for every odd polynomial and for INIT 0; where it holds DEBUG finds agreement; KernelDisagree needs an even
polynomial for which it fails; and the two kernels of a family agree whatever the polynomial. -/
def Obligations.DebugAgreesWhenTheSeedsAreEquivalent : Prop :=
  ∀ s : State, Inv s → s.status.engine = true → s.bufCtrl.getLsbD 0 = true →
    s.bufAddr.toNat + s.bufLen.toNat ≤ s.bufBytes →
    let E := engineOf s
    let init := s.eng.params.init.toNat
    let equivalent := fold E.width E.poly (unfold E.width E.poly init) = init
    (E.poly % 2 = 1 → equivalent) ∧ (init = 0 → equivalent) ∧
    ∃ t, exec .debug s = .next t ∧
      (equivalent → t.status.err = false ∧ t.status.agree = true ∧
        t.result = word (bitFast E (message s)) ∧ t.dbg.bitAug = t.result ∧ t.dbg.bitFast = t.result ∧
        (E.width % 8 = 0 → t.dbg.tblAug = t.result ∧ t.dbg.tblFast = t.result)) ∧
      (t.status.errcode = 0x09 → E.poly % 2 = 0 ∧ ¬ equivalent) ∧
      (E.width % 8 = 0 → t.dbg.tblAug = t.dbg.bitAug ∧ t.dbg.tblFast = t.dbg.bitFast)

/-- R195: the empty message gives the seed-derived trivial result. -/
def Obligations.EmptyMessageGivesTheSeedDerivedResult : Prop :=
  ∀ E : Engine, EngineSound E →
    bitFast E [] = finBit E E.initDirect ∧
    bitAug E [] = finBit E (fold E.width E.poly E.initNodirect) ∧
    (E.width % 8 = 0 → EngineTableRight E → tblFast E [] = bitFast E [] ∧ tblAug E [] = bitAug E [])

/-- R196, R185: every kernel result is below `2^w`, and every value below `2^w` is the result of some Engine of that
width, the all-ones value included; the example of the rule. The first clause also covers the value the model gives a
table kernel on a width that is not byte-aligned, where the spec defines none: there it is about the model's choice
(DESIGN CHOICE, log entry 16), not about R196. -/
def Obligations.KernelResultsAreExactlyTheValuesOfTheWidth : Prop :=
  (∀ (E : Engine) (k : Kernel) (msg : List Byte), 1 ≤ E.width → E.width ≤ 64 → runKernel k E msg < 2 ^ E.width) ∧
  (∀ w v : Nat, 1 ≤ w → w ≤ 64 → v < 2 ^ w → ∃ E : Engine, EngineSound E ∧ E.width = w ∧ bitFast E [] = v) ∧
  (∀ E : Engine, E.width = 64 → E.refin = false → E.refout = false → E.initDirect = 0 → E.xorout = 2 ^ 64 - 1 →
    bitFast E [] = 0xFFFFFFFFFFFFFFFF)

/-- R275: append and residue. With `refin = refout`, SWAP = 0 and a byte-aligned width, under BIT_FAST, under TBL_FAST
where the table is the one R170 gives, and under every kernel where the agreement condition of R194 holds: appending
`C ^ xorout` gives `xorout`; appending `C` gives a constant of the Engine, the same for every message, seed and kernel,
so `xorout` exactly when the constant is; and that constant is 0 when `xorout = 0`. -/
def Obligations.AppendedChecksumGivesTheResidue : Prop :=
  ∀ (E : Engine) (msg : List Byte), EngineSound E → E.width % 8 = 0 → E.refin = E.refout → E.swap = false →
    let laws := fun kernel : List Byte → Nat =>
      kernel (msg ++ suffixBytes E (kernel msg ^^^ E.xorout)) = E.xorout ∧
      kernel (msg ++ suffixBytes E (kernel msg)) = residue E ∧
      (kernel (msg ++ suffixBytes E (kernel msg)) = E.xorout ↔ residue E = E.xorout)
    laws (bitFast E) ∧
    (EngineTableRight E → laws (tblFast E)) ∧
    (fold E.width E.poly E.initNodirect = E.initDirect →
      laws (bitAug E) ∧ (EngineTableRight E → laws (tblAug E))) ∧
    (∀ seed, residue { E with initDirect := seed } = residue E) ∧
    (E.xorout = 0 → residue E = 0)
end

