-- ==== Sys2Proof/Laws/State.lean ====
section
/-! SUPPORT. One lemma per field per named update of the state, and per field of the status write of R306, so that no
later proof unfolds a record update. -/

namespace Sys2Proof.Machine
@[simp] theorem finishStatus_engine (op : BitVec 4) (w a d : Bool) (e : Option CmdError) (t : Status) :
    (finishStatus op w a d e t).engine = t.engine := rfl
@[simp] theorem finishStatus_tableBuilt (op : BitVec 4) (w a d : Bool) (e : Option CmdError) (t : Status) :
    (finishStatus op w a d e t).tableBuilt = t.tableBuilt := rfl
@[simp] theorem finishStatus_busy (op : BitVec 4) (w a d : Bool) (e : Option CmdError) (t : Status) :
    (finishStatus op w a d e t).busy = false := rfl
@[simp] theorem finishStatus_err (op : BitVec 4) (w a d : Bool) (e : Option CmdError) (t : Status) :
    (finishStatus op w a d e t).err = e.isSome := rfl
@[simp] theorem finishStatus_warn (op : BitVec 4) (w a d : Bool) (e : Option CmdError) (t : Status) :
    (finishStatus op w a d e t).warn = w := rfl
@[simp] theorem finishStatus_agree (op : BitVec 4) (w a d : Bool) (e : Option CmdError) (t : Status) :
    (finishStatus op w a d e t).agree = a := rfl
@[simp] theorem finishStatus_dbgTbl (op : BitVec 4) (w a d : Bool) (e : Option CmdError) (t : Status) :
    (finishStatus op w a d e t).dbgTbl = d := rfl
@[simp] theorem finishStatus_lastop (op : BitVec 4) (w a d : Bool) (e : Option CmdError) (t : Status) :
    (finishStatus op w a d e t).lastop = op := rfl
@[simp] theorem finishStatus_errcode (op : BitVec 4) (w a d : Bool) (e : Option CmdError) (t : Status) :
    (finishStatus op w a d e t).errcode = (e.map CmdError.code).getD 0 := rfl

/-! ### `State.setByte` -/

@[simp] theorem setByte_staged (s : State) (a : Nat) (v : Byte) : (s.setByte a v).staged = s.staged := rfl
@[simp] theorem setByte_eng (s : State) (a : Nat) (v : Byte) : (s.setByte a v).eng = s.eng := rfl
@[simp] theorem setByte_table (s : State) (a : Nat) (v : Byte) : (s.setByte a v).table = s.table := rfl
@[simp] theorem setByte_status (s : State) (a : Nat) (v : Byte) : (s.setByte a v).status = s.status := rfl
@[simp] theorem setByte_result (s : State) (a : Nat) (v : Byte) : (s.setByte a v).result = s.result := rfl
@[simp] theorem setByte_dbg (s : State) (a : Nat) (v : Byte) : (s.setByte a v).dbg = s.dbg := rfl
@[simp] theorem setByte_bufAddr (s : State) (a : Nat) (v : Byte) : (s.setByte a v).bufAddr = s.bufAddr := rfl
@[simp] theorem setByte_bufLen (s : State) (a : Nat) (v : Byte) : (s.setByte a v).bufLen = s.bufLen := rfl
@[simp] theorem setByte_bufCtrl (s : State) (a : Nat) (v : Byte) : (s.setByte a v).bufCtrl = s.bufCtrl := rfl
@[simp] theorem setByte_reflIn (s : State) (a : Nat) (v : Byte) : (s.setByte a v).reflIn = s.reflIn := rfl
@[simp] theorem setByte_pending (s : State) (a : Nat) (v : Byte) : (s.setByte a v).pending = s.pending := rfl
@[simp] theorem setByte_msgbuf (s : State) (a : Nat) (v : Byte) : (s.setByte a v).msgbuf = s.msgbuf.set a v := rfl
@[simp] theorem setByte_bufBytes (s : State) (a : Nat) (v : Byte) : (s.setByte a v).bufBytes = s.bufBytes := rfl
@[simp] theorem setByte_resets (s : State) (a : Nat) (v : Byte) : (s.setByte a v).resets = s.resets := rfl
@[simp] theorem setByte_program (s : State) (a : Nat) (v : Byte) : (s.setByte a v).program = s.program := rfl
@[simp] theorem setByte_turns (s : State) (a : Nat) (v : Byte) : (s.setByte a v).turns = s.turns := rfl
@[simp] theorem setByte_responses (s : State) (a : Nat) (v : Byte) : (s.setByte a v).responses = s.responses := rfl

/-! ### `complete` -/

@[simp] theorem complete_staged (op : BitVec 4) (s : State) : (complete op s).staged = s.staged := rfl
@[simp] theorem complete_eng (op : BitVec 4) (s : State) : (complete op s).eng = s.eng := rfl
@[simp] theorem complete_table (op : BitVec 4) (s : State) : (complete op s).table = s.table := rfl
@[simp] theorem complete_status (op : BitVec 4) (s : State) : (complete op s).status = finishStatus op false false false none s.status := rfl
@[simp] theorem complete_result (op : BitVec 4) (s : State) : (complete op s).result = s.result := rfl
@[simp] theorem complete_dbg (op : BitVec 4) (s : State) : (complete op s).dbg = s.dbg := rfl
@[simp] theorem complete_bufAddr (op : BitVec 4) (s : State) : (complete op s).bufAddr = s.bufAddr := rfl
@[simp] theorem complete_bufLen (op : BitVec 4) (s : State) : (complete op s).bufLen = s.bufLen := rfl
@[simp] theorem complete_bufCtrl (op : BitVec 4) (s : State) : (complete op s).bufCtrl = s.bufCtrl := rfl
@[simp] theorem complete_reflIn (op : BitVec 4) (s : State) : (complete op s).reflIn = s.reflIn := rfl
@[simp] theorem complete_pending (op : BitVec 4) (s : State) : (complete op s).pending = s.pending := rfl
@[simp] theorem complete_msgbuf (op : BitVec 4) (s : State) : (complete op s).msgbuf = s.msgbuf := rfl
@[simp] theorem complete_bufBytes (op : BitVec 4) (s : State) : (complete op s).bufBytes = s.bufBytes := rfl
@[simp] theorem complete_resets (op : BitVec 4) (s : State) : (complete op s).resets = s.resets := rfl
@[simp] theorem complete_program (op : BitVec 4) (s : State) : (complete op s).program = s.program := rfl
@[simp] theorem complete_turns (op : BitVec 4) (s : State) : (complete op s).turns = s.turns := rfl
@[simp] theorem complete_responses (op : BitVec 4) (s : State) : (complete op s).responses = s.responses := rfl

/-! ### `completeWith` -/

@[simp] theorem completeWith_staged (op : BitVec 4) (v : Nat) (s : State) : (completeWith op v s).staged = s.staged := rfl
@[simp] theorem completeWith_eng (op : BitVec 4) (v : Nat) (s : State) : (completeWith op v s).eng = s.eng := rfl
@[simp] theorem completeWith_table (op : BitVec 4) (v : Nat) (s : State) : (completeWith op v s).table = s.table := rfl
@[simp] theorem completeWith_status (op : BitVec 4) (v : Nat) (s : State) : (completeWith op v s).status = finishStatus op false false false none s.status := rfl
@[simp] theorem completeWith_result (op : BitVec 4) (v : Nat) (s : State) : (completeWith op v s).result = word v := rfl
@[simp] theorem completeWith_dbg (op : BitVec 4) (v : Nat) (s : State) : (completeWith op v s).dbg = s.dbg := rfl
@[simp] theorem completeWith_bufAddr (op : BitVec 4) (v : Nat) (s : State) : (completeWith op v s).bufAddr = s.bufAddr := rfl
@[simp] theorem completeWith_bufLen (op : BitVec 4) (v : Nat) (s : State) : (completeWith op v s).bufLen = s.bufLen := rfl
@[simp] theorem completeWith_bufCtrl (op : BitVec 4) (v : Nat) (s : State) : (completeWith op v s).bufCtrl = s.bufCtrl := rfl
@[simp] theorem completeWith_reflIn (op : BitVec 4) (v : Nat) (s : State) : (completeWith op v s).reflIn = s.reflIn := rfl
@[simp] theorem completeWith_pending (op : BitVec 4) (v : Nat) (s : State) : (completeWith op v s).pending = s.pending := rfl
@[simp] theorem completeWith_msgbuf (op : BitVec 4) (v : Nat) (s : State) : (completeWith op v s).msgbuf = s.msgbuf := rfl
@[simp] theorem completeWith_bufBytes (op : BitVec 4) (v : Nat) (s : State) : (completeWith op v s).bufBytes = s.bufBytes := rfl
@[simp] theorem completeWith_resets (op : BitVec 4) (v : Nat) (s : State) : (completeWith op v s).resets = s.resets := rfl
@[simp] theorem completeWith_program (op : BitVec 4) (v : Nat) (s : State) : (completeWith op v s).program = s.program := rfl
@[simp] theorem completeWith_turns (op : BitVec 4) (v : Nat) (s : State) : (completeWith op v s).turns = s.turns := rfl
@[simp] theorem completeWith_responses (op : BitVec 4) (v : Nat) (s : State) : (completeWith op v s).responses = s.responses := rfl

/-! ### `completeWarning` -/

@[simp] theorem completeWarning_staged (op : BitVec 4) (s : State) : (completeWarning op s).staged = s.staged := rfl
@[simp] theorem completeWarning_eng (op : BitVec 4) (s : State) : (completeWarning op s).eng = s.eng := rfl
@[simp] theorem completeWarning_table (op : BitVec 4) (s : State) : (completeWarning op s).table = s.table := rfl
@[simp] theorem completeWarning_status (op : BitVec 4) (s : State) : (completeWarning op s).status = finishStatus op true false false none s.status := rfl
@[simp] theorem completeWarning_result (op : BitVec 4) (s : State) : (completeWarning op s).result = s.result := rfl
@[simp] theorem completeWarning_dbg (op : BitVec 4) (s : State) : (completeWarning op s).dbg = s.dbg := rfl
@[simp] theorem completeWarning_bufAddr (op : BitVec 4) (s : State) : (completeWarning op s).bufAddr = s.bufAddr := rfl
@[simp] theorem completeWarning_bufLen (op : BitVec 4) (s : State) : (completeWarning op s).bufLen = s.bufLen := rfl
@[simp] theorem completeWarning_bufCtrl (op : BitVec 4) (s : State) : (completeWarning op s).bufCtrl = s.bufCtrl := rfl
@[simp] theorem completeWarning_reflIn (op : BitVec 4) (s : State) : (completeWarning op s).reflIn = s.reflIn := rfl
@[simp] theorem completeWarning_pending (op : BitVec 4) (s : State) : (completeWarning op s).pending = s.pending := rfl
@[simp] theorem completeWarning_msgbuf (op : BitVec 4) (s : State) : (completeWarning op s).msgbuf = s.msgbuf := rfl
@[simp] theorem completeWarning_bufBytes (op : BitVec 4) (s : State) : (completeWarning op s).bufBytes = s.bufBytes := rfl
@[simp] theorem completeWarning_resets (op : BitVec 4) (s : State) : (completeWarning op s).resets = s.resets := rfl
@[simp] theorem completeWarning_program (op : BitVec 4) (s : State) : (completeWarning op s).program = s.program := rfl
@[simp] theorem completeWarning_turns (op : BitVec 4) (s : State) : (completeWarning op s).turns = s.turns := rfl
@[simp] theorem completeWarning_responses (op : BitVec 4) (s : State) : (completeWarning op s).responses = s.responses := rfl

/-! ### `raiseError` -/

@[simp] theorem raiseError_staged (op : BitVec 4) (e : CmdError) (s : State) : (raiseError op e s).staged = s.staged := rfl
@[simp] theorem raiseError_eng (op : BitVec 4) (e : CmdError) (s : State) : (raiseError op e s).eng = s.eng := rfl
@[simp] theorem raiseError_table (op : BitVec 4) (e : CmdError) (s : State) : (raiseError op e s).table = s.table := rfl
@[simp] theorem raiseError_status (op : BitVec 4) (e : CmdError) (s : State) : (raiseError op e s).status = finishStatus op false false false (some e) s.status := rfl
@[simp] theorem raiseError_result (op : BitVec 4) (e : CmdError) (s : State) : (raiseError op e s).result = s.result := rfl
@[simp] theorem raiseError_dbg (op : BitVec 4) (e : CmdError) (s : State) : (raiseError op e s).dbg = s.dbg := rfl
@[simp] theorem raiseError_bufAddr (op : BitVec 4) (e : CmdError) (s : State) : (raiseError op e s).bufAddr = s.bufAddr := rfl
@[simp] theorem raiseError_bufLen (op : BitVec 4) (e : CmdError) (s : State) : (raiseError op e s).bufLen = s.bufLen := rfl
@[simp] theorem raiseError_bufCtrl (op : BitVec 4) (e : CmdError) (s : State) : (raiseError op e s).bufCtrl = s.bufCtrl := rfl
@[simp] theorem raiseError_reflIn (op : BitVec 4) (e : CmdError) (s : State) : (raiseError op e s).reflIn = s.reflIn := rfl
@[simp] theorem raiseError_pending (op : BitVec 4) (e : CmdError) (s : State) : (raiseError op e s).pending = s.pending := rfl
@[simp] theorem raiseError_msgbuf (op : BitVec 4) (e : CmdError) (s : State) : (raiseError op e s).msgbuf = s.msgbuf := rfl
@[simp] theorem raiseError_bufBytes (op : BitVec 4) (e : CmdError) (s : State) : (raiseError op e s).bufBytes = s.bufBytes := rfl
@[simp] theorem raiseError_resets (op : BitVec 4) (e : CmdError) (s : State) : (raiseError op e s).resets = s.resets := rfl
@[simp] theorem raiseError_program (op : BitVec 4) (e : CmdError) (s : State) : (raiseError op e s).program = s.program := rfl
@[simp] theorem raiseError_turns (op : BitVec 4) (e : CmdError) (s : State) : (raiseError op e s).turns = s.turns := rfl
@[simp] theorem raiseError_responses (op : BitVec 4) (e : CmdError) (s : State) : (raiseError op e s).responses = s.responses := rfl

/-! ### `finishDebug` -/

@[simp] theorem finishDebug_staged (a d : Bool) (e : Option CmdError) (s : State) : (finishDebug a d e s).staged = s.staged := rfl
@[simp] theorem finishDebug_eng (a d : Bool) (e : Option CmdError) (s : State) : (finishDebug a d e s).eng = s.eng := rfl
@[simp] theorem finishDebug_table (a d : Bool) (e : Option CmdError) (s : State) : (finishDebug a d e s).table = s.table := rfl
@[simp] theorem finishDebug_status (a d : Bool) (e : Option CmdError) (s : State) : (finishDebug a d e s).status = finishStatus opDebug false a d e s.status := rfl
@[simp] theorem finishDebug_result (a d : Bool) (e : Option CmdError) (s : State) : (finishDebug a d e s).result = s.result := rfl
@[simp] theorem finishDebug_dbg (a d : Bool) (e : Option CmdError) (s : State) : (finishDebug a d e s).dbg = s.dbg := rfl
@[simp] theorem finishDebug_bufAddr (a d : Bool) (e : Option CmdError) (s : State) : (finishDebug a d e s).bufAddr = s.bufAddr := rfl
@[simp] theorem finishDebug_bufLen (a d : Bool) (e : Option CmdError) (s : State) : (finishDebug a d e s).bufLen = s.bufLen := rfl
@[simp] theorem finishDebug_bufCtrl (a d : Bool) (e : Option CmdError) (s : State) : (finishDebug a d e s).bufCtrl = s.bufCtrl := rfl
@[simp] theorem finishDebug_reflIn (a d : Bool) (e : Option CmdError) (s : State) : (finishDebug a d e s).reflIn = s.reflIn := rfl
@[simp] theorem finishDebug_pending (a d : Bool) (e : Option CmdError) (s : State) : (finishDebug a d e s).pending = s.pending := rfl
@[simp] theorem finishDebug_msgbuf (a d : Bool) (e : Option CmdError) (s : State) : (finishDebug a d e s).msgbuf = s.msgbuf := rfl
@[simp] theorem finishDebug_bufBytes (a d : Bool) (e : Option CmdError) (s : State) : (finishDebug a d e s).bufBytes = s.bufBytes := rfl
@[simp] theorem finishDebug_resets (a d : Bool) (e : Option CmdError) (s : State) : (finishDebug a d e s).resets = s.resets := rfl
@[simp] theorem finishDebug_program (a d : Bool) (e : Option CmdError) (s : State) : (finishDebug a d e s).program = s.program := rfl
@[simp] theorem finishDebug_turns (a d : Bool) (e : Option CmdError) (s : State) : (finishDebug a d e s).turns = s.turns := rfl
@[simp] theorem finishDebug_responses (a d : Bool) (e : Option CmdError) (s : State) : (finishDebug a d e s).responses = s.responses := rfl

/-! ### `buildTable` -/

@[simp] theorem buildTable_staged (s : State) : (buildTable s).staged = s.staged := by simp only [buildTable]
@[simp] theorem buildTable_eng (s : State) : (buildTable s).eng = s.eng := by simp only [buildTable]
@[simp] theorem buildTable_table (s : State) : (buildTable s).table = tableOf (cfgWidth s.eng.params.cfg) s.eng.params.poly.toNat (cfgRefin s.eng.params.cfg) := by simp only [buildTable]
@[simp] theorem buildTable_status (s : State) : (buildTable s).status = { s.status with tableBuilt := true } := by simp only [buildTable]
@[simp] theorem buildTable_result (s : State) : (buildTable s).result = s.result := by simp only [buildTable]
@[simp] theorem buildTable_dbg (s : State) : (buildTable s).dbg = s.dbg := by simp only [buildTable]
@[simp] theorem buildTable_bufAddr (s : State) : (buildTable s).bufAddr = s.bufAddr := by simp only [buildTable]
@[simp] theorem buildTable_bufLen (s : State) : (buildTable s).bufLen = s.bufLen := by simp only [buildTable]
@[simp] theorem buildTable_bufCtrl (s : State) : (buildTable s).bufCtrl = s.bufCtrl := by simp only [buildTable]
@[simp] theorem buildTable_reflIn (s : State) : (buildTable s).reflIn = s.reflIn := by simp only [buildTable]
@[simp] theorem buildTable_pending (s : State) : (buildTable s).pending = s.pending := by simp only [buildTable]
@[simp] theorem buildTable_msgbuf (s : State) : (buildTable s).msgbuf = s.msgbuf := by simp only [buildTable]
@[simp] theorem buildTable_bufBytes (s : State) : (buildTable s).bufBytes = s.bufBytes := by simp only [buildTable]
@[simp] theorem buildTable_resets (s : State) : (buildTable s).resets = s.resets := by simp only [buildTable]
@[simp] theorem buildTable_program (s : State) : (buildTable s).program = s.program := by simp only [buildTable]
@[simp] theorem buildTable_turns (s : State) : (buildTable s).turns = s.turns := by simp only [buildTable]
@[simp] theorem buildTable_responses (s : State) : (buildTable s).responses = s.responses := by simp only [buildTable]

/-! ### `loadEngine` -/

@[simp] theorem loadEngine_staged (s : State) : (loadEngine s).staged = s.staged := rfl
@[simp] theorem loadEngine_table (s : State) : (loadEngine s).table = s.table := rfl
@[simp] theorem loadEngine_status (s : State) : (loadEngine s).status = s.status := rfl
@[simp] theorem loadEngine_result (s : State) : (loadEngine s).result = s.result := rfl
@[simp] theorem loadEngine_dbg (s : State) : (loadEngine s).dbg = s.dbg := rfl
@[simp] theorem loadEngine_bufAddr (s : State) : (loadEngine s).bufAddr = s.bufAddr := rfl
@[simp] theorem loadEngine_bufLen (s : State) : (loadEngine s).bufLen = s.bufLen := rfl
@[simp] theorem loadEngine_bufCtrl (s : State) : (loadEngine s).bufCtrl = s.bufCtrl := rfl
@[simp] theorem loadEngine_reflIn (s : State) : (loadEngine s).reflIn = s.reflIn := rfl
@[simp] theorem loadEngine_pending (s : State) : (loadEngine s).pending = s.pending := rfl
@[simp] theorem loadEngine_msgbuf (s : State) : (loadEngine s).msgbuf = s.msgbuf := rfl
@[simp] theorem loadEngine_bufBytes (s : State) : (loadEngine s).bufBytes = s.bufBytes := rfl
@[simp] theorem loadEngine_resets (s : State) : (loadEngine s).resets = s.resets := rfl
@[simp] theorem loadEngine_program (s : State) : (loadEngine s).program = s.program := rfl
@[simp] theorem loadEngine_turns (s : State) : (loadEngine s).turns = s.turns := rfl
@[simp] theorem loadEngine_responses (s : State) : (loadEngine s).responses = s.responses := rfl

/-! ### `holdEngine` -/

@[simp] theorem holdEngine_staged (s : State) : (holdEngine s).staged = s.staged := rfl
@[simp] theorem holdEngine_eng (s : State) : (holdEngine s).eng = s.eng := rfl
@[simp] theorem holdEngine_table (s : State) : (holdEngine s).table = s.table := rfl
@[simp] theorem holdEngine_status (s : State) : (holdEngine s).status = { s.status with engine := true } := rfl
@[simp] theorem holdEngine_result (s : State) : (holdEngine s).result = s.result := rfl
@[simp] theorem holdEngine_dbg (s : State) : (holdEngine s).dbg = s.dbg := rfl
@[simp] theorem holdEngine_bufAddr (s : State) : (holdEngine s).bufAddr = s.bufAddr := rfl
@[simp] theorem holdEngine_bufLen (s : State) : (holdEngine s).bufLen = s.bufLen := rfl
@[simp] theorem holdEngine_bufCtrl (s : State) : (holdEngine s).bufCtrl = s.bufCtrl := rfl
@[simp] theorem holdEngine_reflIn (s : State) : (holdEngine s).reflIn = s.reflIn := rfl
@[simp] theorem holdEngine_pending (s : State) : (holdEngine s).pending = s.pending := rfl
@[simp] theorem holdEngine_msgbuf (s : State) : (holdEngine s).msgbuf = s.msgbuf := rfl
@[simp] theorem holdEngine_bufBytes (s : State) : (holdEngine s).bufBytes = s.bufBytes := rfl
@[simp] theorem holdEngine_resets (s : State) : (holdEngine s).resets = s.resets := rfl
@[simp] theorem holdEngine_program (s : State) : (holdEngine s).program = s.program := rfl
@[simp] theorem holdEngine_turns (s : State) : (holdEngine s).turns = s.turns := rfl
@[simp] theorem holdEngine_responses (s : State) : (holdEngine s).responses = s.responses := rfl

/-! ### `releaseEngine` -/

@[simp] theorem releaseEngine_staged (s : State) : (releaseEngine s).staged = s.staged := rfl
@[simp] theorem releaseEngine_eng (s : State) : (releaseEngine s).eng = EngineRegs.zero := rfl
@[simp] theorem releaseEngine_table (s : State) : (releaseEngine s).table = zeroTable := rfl
@[simp] theorem releaseEngine_status (s : State) : (releaseEngine s).status = { s.status with engine := false, tableBuilt := false } := rfl
@[simp] theorem releaseEngine_result (s : State) : (releaseEngine s).result = s.result := rfl
@[simp] theorem releaseEngine_dbg (s : State) : (releaseEngine s).dbg = s.dbg := rfl
@[simp] theorem releaseEngine_bufAddr (s : State) : (releaseEngine s).bufAddr = s.bufAddr := rfl
@[simp] theorem releaseEngine_bufLen (s : State) : (releaseEngine s).bufLen = s.bufLen := rfl
@[simp] theorem releaseEngine_bufCtrl (s : State) : (releaseEngine s).bufCtrl = s.bufCtrl := rfl
@[simp] theorem releaseEngine_reflIn (s : State) : (releaseEngine s).reflIn = s.reflIn := rfl
@[simp] theorem releaseEngine_pending (s : State) : (releaseEngine s).pending = s.pending := rfl
@[simp] theorem releaseEngine_msgbuf (s : State) : (releaseEngine s).msgbuf = s.msgbuf := rfl
@[simp] theorem releaseEngine_bufBytes (s : State) : (releaseEngine s).bufBytes = s.bufBytes := rfl
@[simp] theorem releaseEngine_resets (s : State) : (releaseEngine s).resets = s.resets := rfl
@[simp] theorem releaseEngine_program (s : State) : (releaseEngine s).program = s.program := rfl
@[simp] theorem releaseEngine_turns (s : State) : (releaseEngine s).turns = s.turns := rfl
@[simp] theorem releaseEngine_responses (s : State) : (releaseEngine s).responses = s.responses := rfl

/-! ### `acceptCommand` -/

@[simp] theorem acceptCommand_staged (v : Word) (s : State) : (acceptCommand v s).staged = s.staged := rfl
@[simp] theorem acceptCommand_eng (v : Word) (s : State) : (acceptCommand v s).eng = s.eng := rfl
@[simp] theorem acceptCommand_table (v : Word) (s : State) : (acceptCommand v s).table = s.table := rfl
@[simp] theorem acceptCommand_status (v : Word) (s : State) : (acceptCommand v s).status = { s.status with busy := true } := rfl
@[simp] theorem acceptCommand_result (v : Word) (s : State) : (acceptCommand v s).result = s.result := rfl
@[simp] theorem acceptCommand_dbg (v : Word) (s : State) : (acceptCommand v s).dbg = s.dbg := rfl
@[simp] theorem acceptCommand_bufAddr (v : Word) (s : State) : (acceptCommand v s).bufAddr = s.bufAddr := rfl
@[simp] theorem acceptCommand_bufLen (v : Word) (s : State) : (acceptCommand v s).bufLen = s.bufLen := rfl
@[simp] theorem acceptCommand_bufCtrl (v : Word) (s : State) : (acceptCommand v s).bufCtrl = s.bufCtrl := rfl
@[simp] theorem acceptCommand_reflIn (v : Word) (s : State) : (acceptCommand v s).reflIn = s.reflIn := rfl
@[simp] theorem acceptCommand_pending (v : Word) (s : State) : (acceptCommand v s).pending = v := rfl
@[simp] theorem acceptCommand_msgbuf (v : Word) (s : State) : (acceptCommand v s).msgbuf = s.msgbuf := rfl
@[simp] theorem acceptCommand_bufBytes (v : Word) (s : State) : (acceptCommand v s).bufBytes = s.bufBytes := rfl
@[simp] theorem acceptCommand_resets (v : Word) (s : State) : (acceptCommand v s).resets = s.resets := rfl
@[simp] theorem acceptCommand_program (v : Word) (s : State) : (acceptCommand v s).program = s.program := rfl
@[simp] theorem acceptCommand_turns (v : Word) (s : State) : (acceptCommand v s).turns = s.turns := rfl
@[simp] theorem acceptCommand_responses (v : Word) (s : State) : (acceptCommand v s).responses = s.responses := rfl

/-! ### `record` -/

@[simp] theorem record_staged (r : Response) (s : State) : (record r s).staged = s.staged := rfl
@[simp] theorem record_eng (r : Response) (s : State) : (record r s).eng = s.eng := rfl
@[simp] theorem record_table (r : Response) (s : State) : (record r s).table = s.table := rfl
@[simp] theorem record_status (r : Response) (s : State) : (record r s).status = s.status := rfl
@[simp] theorem record_result (r : Response) (s : State) : (record r s).result = s.result := rfl
@[simp] theorem record_dbg (r : Response) (s : State) : (record r s).dbg = s.dbg := rfl
@[simp] theorem record_bufAddr (r : Response) (s : State) : (record r s).bufAddr = s.bufAddr := rfl
@[simp] theorem record_bufLen (r : Response) (s : State) : (record r s).bufLen = s.bufLen := rfl
@[simp] theorem record_bufCtrl (r : Response) (s : State) : (record r s).bufCtrl = s.bufCtrl := rfl
@[simp] theorem record_reflIn (r : Response) (s : State) : (record r s).reflIn = s.reflIn := rfl
@[simp] theorem record_pending (r : Response) (s : State) : (record r s).pending = s.pending := rfl
@[simp] theorem record_msgbuf (r : Response) (s : State) : (record r s).msgbuf = s.msgbuf := rfl
@[simp] theorem record_bufBytes (r : Response) (s : State) : (record r s).bufBytes = s.bufBytes := rfl
@[simp] theorem record_resets (r : Response) (s : State) : (record r s).resets = s.resets := rfl
@[simp] theorem record_program (r : Response) (s : State) : (record r s).program = s.program := rfl
@[simp] theorem record_turns (r : Response) (s : State) : (record r s).turns = s.turns := rfl
@[simp] theorem record_responses (r : Response) (s : State) : (record r s).responses = r :: s.responses := rfl

/-! ### `setProgram` -/

@[simp] theorem setProgram_staged (p : List HostOp) (s : State) : (setProgram p s).staged = s.staged := rfl
@[simp] theorem setProgram_eng (p : List HostOp) (s : State) : (setProgram p s).eng = s.eng := rfl
@[simp] theorem setProgram_table (p : List HostOp) (s : State) : (setProgram p s).table = s.table := rfl
@[simp] theorem setProgram_status (p : List HostOp) (s : State) : (setProgram p s).status = s.status := rfl
@[simp] theorem setProgram_result (p : List HostOp) (s : State) : (setProgram p s).result = s.result := rfl
@[simp] theorem setProgram_dbg (p : List HostOp) (s : State) : (setProgram p s).dbg = s.dbg := rfl
@[simp] theorem setProgram_bufAddr (p : List HostOp) (s : State) : (setProgram p s).bufAddr = s.bufAddr := rfl
@[simp] theorem setProgram_bufLen (p : List HostOp) (s : State) : (setProgram p s).bufLen = s.bufLen := rfl
@[simp] theorem setProgram_bufCtrl (p : List HostOp) (s : State) : (setProgram p s).bufCtrl = s.bufCtrl := rfl
@[simp] theorem setProgram_reflIn (p : List HostOp) (s : State) : (setProgram p s).reflIn = s.reflIn := rfl
@[simp] theorem setProgram_pending (p : List HostOp) (s : State) : (setProgram p s).pending = s.pending := rfl
@[simp] theorem setProgram_msgbuf (p : List HostOp) (s : State) : (setProgram p s).msgbuf = s.msgbuf := rfl
@[simp] theorem setProgram_bufBytes (p : List HostOp) (s : State) : (setProgram p s).bufBytes = s.bufBytes := rfl
@[simp] theorem setProgram_resets (p : List HostOp) (s : State) : (setProgram p s).resets = s.resets := rfl
@[simp] theorem setProgram_program (p : List HostOp) (s : State) : (setProgram p s).program = p := rfl
@[simp] theorem setProgram_turns (p : List HostOp) (s : State) : (setProgram p s).turns = s.turns := rfl
@[simp] theorem setProgram_responses (p : List HostOp) (s : State) : (setProgram p s).responses = s.responses := rfl

/-! ### `setTurns` -/

@[simp] theorem setTurns_staged (ts : List Turn) (s : State) : (setTurns ts s).staged = s.staged := rfl
@[simp] theorem setTurns_eng (ts : List Turn) (s : State) : (setTurns ts s).eng = s.eng := rfl
@[simp] theorem setTurns_table (ts : List Turn) (s : State) : (setTurns ts s).table = s.table := rfl
@[simp] theorem setTurns_status (ts : List Turn) (s : State) : (setTurns ts s).status = s.status := rfl
@[simp] theorem setTurns_result (ts : List Turn) (s : State) : (setTurns ts s).result = s.result := rfl
@[simp] theorem setTurns_dbg (ts : List Turn) (s : State) : (setTurns ts s).dbg = s.dbg := rfl
@[simp] theorem setTurns_bufAddr (ts : List Turn) (s : State) : (setTurns ts s).bufAddr = s.bufAddr := rfl
@[simp] theorem setTurns_bufLen (ts : List Turn) (s : State) : (setTurns ts s).bufLen = s.bufLen := rfl
@[simp] theorem setTurns_bufCtrl (ts : List Turn) (s : State) : (setTurns ts s).bufCtrl = s.bufCtrl := rfl
@[simp] theorem setTurns_reflIn (ts : List Turn) (s : State) : (setTurns ts s).reflIn = s.reflIn := rfl
@[simp] theorem setTurns_pending (ts : List Turn) (s : State) : (setTurns ts s).pending = s.pending := rfl
@[simp] theorem setTurns_msgbuf (ts : List Turn) (s : State) : (setTurns ts s).msgbuf = s.msgbuf := rfl
@[simp] theorem setTurns_bufBytes (ts : List Turn) (s : State) : (setTurns ts s).bufBytes = s.bufBytes := rfl
@[simp] theorem setTurns_resets (ts : List Turn) (s : State) : (setTurns ts s).resets = s.resets := rfl
@[simp] theorem setTurns_program (ts : List Turn) (s : State) : (setTurns ts s).program = s.program := rfl
@[simp] theorem setTurns_turns (ts : List Turn) (s : State) : (setTurns ts s).turns = ts := rfl
@[simp] theorem setTurns_responses (ts : List Turn) (s : State) : (setTurns ts s).responses = s.responses := rfl

/-! ### `finishStatus` on the two outcomes -/

/-- R306 on a success that recorded nothing is `succeeded`. -/
theorem finishStatus_success (op : BitVec 4) (t : Status) : finishStatus op false false false none t = succeeded op t :=
  rfl

/-- Without PE_* or NI_* information, R306 on an error is `failed`. -/
theorem finishStatus_error (op : BitVec 4) (e : CmdError) (t : Status) (hv : e.violations = CmdError.illegalCommand.violations)
    (he : e.noEngine = false) (hb : e.noBuffer = false) :
    finishStatus op false false false (some e) t = failed op e.code t := by
  have h : e.violations = ⟨false, false, false, false⟩ := hv
  simp [finishStatus, failed, succeeded, h, he, hb]

end Sys2Proof.Machine
end

