-- ==== Sys2Proof/Laws/Primitives.lean ====
section
/-! SUPPORT. The pure functions of 40_primitives.md: the mask, the reflector bit by bit, the division steps as linear maps
over XOR, and `Unfold` as the inverse of the fold for an odd polynomial (R155, R156, R158, R161, R162). -/

namespace Sys2Proof.Machine

/-! ### Mask -/

theorem mask_of_le {w : Nat} (h : w ≤ 64) : mask w = 2 ^ w - 1 := by simp [mask, h]

theorem mask_lt {w : Nat} (h : w ≤ 64) : mask w < 2 ^ w := by
  rw [mask_of_le h]; have := Nat.two_pow_pos w; omega

theorem testBit_mask {w : Nat} (h : w ≤ 64) (i : Nat) : (mask w).testBit i = decide (i < w) := by
  rw [mask_of_le h, Nat.testBit_two_pow_sub_one]

/-- Masking is reduction modulo `2^w`. -/
theorem and_mask {w : Nat} (h : w ≤ 64) (x : Nat) : x &&& mask w = x % 2 ^ w := by
  rw [mask_of_le h, Nat.and_two_pow_sub_one_eq_mod]

theorem and_mask_lt {w : Nat} (h : w ≤ 64) (x : Nat) : x &&& mask w < 2 ^ w := by
  rw [and_mask h]; exact Nat.mod_lt _ (Nat.two_pow_pos w)

/-- A value fits the width exactly when masking leaves it as it is. -/
theorem and_mask_eq_self_iff {w : Nat} (h : w ≤ 64) (x : Nat) : x &&& mask w = x ↔ x < 2 ^ w := by
  rw [and_mask h]
  exact ⟨fun e => e ▸ Nat.mod_lt _ (Nat.two_pow_pos w), Nat.mod_eq_of_lt⟩

theorem and_mask_of_lt {w x : Nat} (h : w ≤ 64) (hx : x < 2 ^ w) : x &&& mask w = x :=
  (and_mask_eq_self_iff h x).2 hx

/-- A value below `2^w` fits a register. -/
theorem lt_word_of_lt {w x : Nat} (h : w ≤ 64) (hx : x < 2 ^ w) : x < 2 ^ 64 :=
  lt_of_lt_of_le hx (Nat.pow_le_pow_right (by omega) h)

theorem toNat_word_of_lt {w x : Nat} (h : w ≤ 64) (hx : x < 2 ^ w) : (word x).toNat = x := by
  rw [word, BitVec.toNat_ofNat, Nat.mod_eq_of_lt (lt_word_of_lt h hx)]

theorem testBit_of_lt {w x i : Nat} (hx : x < 2 ^ w) (h : w ≤ i) : x.testBit i = false :=
  Nat.testBit_lt_two_pow (lt_of_lt_of_le hx (Nat.pow_le_pow_right (by omega) h))

theorem xor_lt {w a b : Nat} (ha : a < 2 ^ w) (hb : b < 2 ^ w) : a ^^^ b < 2 ^ w := Nat.xor_lt_two_pow ha hb

/-! ### Reflector -/

/-- R155: bit `i` of the result is bit `n-1-i` of the value; bits at or above `n` are 0. -/
theorem testBit_reflect (v n i : Nat) : (reflect v n).testBit i = (decide (i < n) && v.testBit (n - 1 - i)) := by
  have key : ∀ m, m ≤ n →
      ((List.range m).foldl (fun r i => if v.testBit i then r ||| (1 <<< (n - 1 - i)) else r) 0).testBit i
        = (decide (i < n ∧ n - 1 - i < m) && v.testBit (n - 1 - i)) := by
    intro m hm
    induction m with
    | zero => simp
    | succ m ih =>
      rw [List.range_succ, List.foldl_append, List.foldl_cons, List.foldl_nil]
      have hbit : (1 <<< (n - 1 - m)).testBit i = decide (n - 1 - m = i) := by
        rw [Nat.one_shiftLeft, Nat.testBit_two_pow]
      by_cases hi : n - 1 - m = i
      · subst hi
        have e : n - 1 - (n - 1 - m) = m := by omega
        have ih' := ih (by omega)
        rw [e] at ih' ⊢
        cases hv : v.testBit m
        · simp [ih']
        · simp only [if_true, Nat.testBit_or, hbit, decide_true, Bool.or_true, Bool.and_true]
          symm; rw [decide_eq_true_eq]; omega
      · have hd : decide (i < n ∧ n - 1 - i < m + 1) = decide (i < n ∧ n - 1 - i < m) := by
          rw [decide_eq_decide]; omega
        cases hv : v.testBit m
        · simp only [Bool.false_eq_true, if_false, ih (by omega), hd]
        · simp only [if_true, Nat.testBit_or, hbit, hi, decide_false, Bool.or_false, ih (by omega), hd]
  have := key n le_rfl
  rw [reflect, this]
  congr 1
  rw [decide_eq_decide]; omega

theorem reflect_lt (v n : Nat) : reflect v n < 2 ^ n := by
  apply Nat.lt_pow_two_of_testBit
  intro i hi
  simp [testBit_reflect, show ¬ i < n by omega]

@[simp] theorem reflect_zero (n : Nat) : reflect 0 n = 0 := by
  apply Nat.eq_of_testBit_eq; simp [testBit_reflect]

theorem reflect_xor (a b n : Nat) : reflect (a ^^^ b) n = reflect a n ^^^ reflect b n := by
  apply Nat.eq_of_testBit_eq
  intro i
  simp only [testBit_reflect, Nat.testBit_xor]
  cases decide (i < n) <;> simp

theorem reflect_or (a b n : Nat) : reflect (a ||| b) n = reflect a n ||| reflect b n := by
  apply Nat.eq_of_testBit_eq
  intro i
  simp only [testBit_reflect, Nat.testBit_or]
  cases decide (i < n) <;> simp

/-- R156: the reflector is an involution on `n`-bit values. -/
theorem reflect_reflect {x n : Nat} (h : x < 2 ^ n) : reflect (reflect x n) n = x := by
  apply Nat.eq_of_testBit_eq
  intro i
  by_cases hi : i < n
  · simp [testBit_reflect, hi, show n - 1 - i < n by omega, show n - 1 - (n - 1 - i) = i by omega]
  · simp [testBit_reflect, hi, testBit_of_lt h (by omega : n ≤ i)]

/-! ### Division steps -/

@[simp] theorem zStep_zero (w poly : Nat) : zStep w poly 0 = 0 := by simp [zStep]

/-- R158: the division step is linear over XOR. -/
theorem zStep_xor (w poly a b : Nat) : zStep w poly (a ^^^ b) = zStep w poly a ^^^ zStep w poly b := by
  have hs : ((a ^^^ b) <<< 1) &&& mask w = ((a <<< 1) &&& mask w) ^^^ ((b <<< 1) &&& mask w) := by
    rw [Nat.shiftLeft_xor_distrib, Nat.and_xor_distrib_right]
  simp only [zStep, Nat.testBit_xor, hs]
  cases a.testBit (w - 1) <;> cases b.testBit (w - 1) <;> apply Nat.eq_of_testBit_eq <;> intro i <;>
    simp [Bool.xor_left_comm, Bool.xor_comm]

theorem zStep_lt {w poly : Nat} (hw : w ≤ 64) (hp : poly < 2 ^ w) (r : Nat) : zStep w poly r < 2 ^ w := by
  unfold zStep
  split
  · exact xor_lt (and_mask_lt hw _) hp
  · exact and_mask_lt hw _

/-- While the top bit is clear the step is a shift. -/
theorem zStep_of_lt {w poly r : Nat} (hw : 1 ≤ w) (hw' : w ≤ 64) (h : r < 2 ^ (w - 1)) : zStep w poly r = r <<< 1 := by
  have ht : r.testBit (w - 1) = false := Nat.testBit_lt_two_pow h
  rw [zStep, ht]
  refine and_mask_of_lt hw' ?_
  rw [Nat.shiftLeft_eq, pow_one]
  calc r * 2 < 2 ^ (w - 1) * 2 := by omega
    _ = 2 ^ w := by rw [← pow_succ]; congr 1; omega

theorem iterate_zStep_zero (w poly k : Nat) : (zStep w poly)^[k] 0 = 0 := by
  induction k with
  | zero => rfl
  | succ k ih => rw [Function.iterate_succ_apply, zStep_zero, ih]

theorem iterate_zStep_xor (w poly k a b : Nat) :
    (zStep w poly)^[k] (a ^^^ b) = (zStep w poly)^[k] a ^^^ (zStep w poly)^[k] b := by
  induction k generalizing a b with
  | zero => rfl
  | succ k ih => simp only [Function.iterate_succ_apply, zStep_xor, ih]

theorem iterate_zStep_lt {w poly r : Nat} (hw : w ≤ 64) (hp : poly < 2 ^ w) (hr : r < 2 ^ w) (k : Nat) :
    (zStep w poly)^[k] r < 2 ^ w := by
  induction k generalizing r with
  | zero => exact hr
  | succ k ih => exact ih (zStep_lt hw hp r)

/-- While no set bit reaches the top, `k` steps are a shift by `k`. -/
theorem iterate_zStep_of_lt {w poly k r : Nat} (hk : k ≤ w) (hw' : w ≤ 64) (h : r < 2 ^ (w - k)) :
    (zStep w poly)^[k] r = r <<< k := by
  induction k generalizing r with
  | zero => simp
  | succ k ih =>
    have h1 : r < 2 ^ (w - 1) := lt_of_lt_of_le h (Nat.pow_le_pow_right (by omega) (by omega))
    rw [Function.iterate_succ_apply, zStep_of_lt (by omega) hw' h1, ih (by omega), ← Nat.shiftLeft_add, Nat.add_comm]
    rw [Nat.shiftLeft_eq, pow_one]
    calc r * 2 < 2 ^ (w - (k + 1)) * 2 := by omega
      _ = 2 ^ (w - k) := by rw [← pow_succ]; congr 1; omega

/-- R158: AStep is ZStep with the input bit XORed into bit 0. -/
theorem aStep_eq {w : Nat} (hw : 1 ≤ w) (hw' : w ≤ 64) (poly r : Nat) (b : Bool) :
    aStep w poly r b = zStep w poly r ^^^ b.toNat := by
  have h : ((r <<< 1) ||| b.toNat) &&& mask w = ((r <<< 1) &&& mask w) ^^^ b.toNat := by
    apply Nat.eq_of_testBit_eq
    intro i
    rw [Nat.testBit_and, Nat.testBit_or, Nat.testBit_xor, Nat.testBit_and, testBit_mask hw', Nat.testBit_shiftLeft]
    cases i with
    | zero => cases b <;> simp [show 0 < w by omega]
    | succ i => cases b <;> simp [Nat.testBit_succ]
  simp only [aStep, zStep, h]
  split
  · rw [Nat.xor_assoc, Nat.xor_assoc, Nat.xor_comm poly]
  · rfl

/-- R158: FStep is ZStep with the input bit XORed into the top bit first. -/
theorem fStep_eq {w : Nat} (hw : 1 ≤ w) (hw' : w ≤ 64) (poly r : Nat) (b : Bool) :
    fStep w poly r b = zStep w poly (r ^^^ (b.toNat <<< (w - 1))) := by
  have hb : (b.toNat <<< (w - 1)).testBit (w - 1) = b := by
    rw [Nat.testBit_shiftLeft]; cases b <;> simp
  have hs : ((r ^^^ (b.toNat <<< (w - 1))) <<< 1) &&& mask w = (r <<< 1) &&& mask w := by
    rw [Nat.shiftLeft_xor_distrib, Nat.and_xor_distrib_right]
    have : ((b.toNat <<< (w - 1)) <<< 1) &&& mask w = 0 := by
      rw [← Nat.shiftLeft_add, show w - 1 + 1 = w by omega, and_mask hw', Nat.shiftLeft_eq]
      exact Nat.mul_mod_left _ _
    rw [this, Nat.xor_zero]
  simp only [fStep, zStep, Nat.testBit_xor, hb, hs]

theorem aStep_false (w poly r : Nat) : aStep w poly r false = zStep w poly r := by simp [aStep, zStep]

theorem fStep_false (w poly r : Nat) : fStep w poly r false = zStep w poly r := by simp [fStep, zStep]

/-! ### Unfold -/

theorem unfoldStep_lt {w poly v : Nat} (hw : 1 ≤ w) (hp : poly < 2 ^ w) (hv : v < 2 ^ w) :
    unfoldStep w poly v < 2 ^ w := by
  have key : ∀ x, x < 2 ^ w → x >>> 1 < 2 ^ (w - 1) := by
    intro x hx
    rw [Nat.shiftRight_eq_div_pow, pow_one]
    have : 2 ^ w = 2 ^ (w - 1) * 2 := by rw [← pow_succ]; congr 1; omega
    omega
  have hle : 2 ^ (w - 1) < 2 ^ w := Nat.pow_lt_pow_right (by omega) (by omega)
  unfold unfoldStep
  split
  · refine Nat.or_lt_two_pow (lt_trans (key _ (xor_lt hv hp)) hle) ?_
    rw [Nat.one_shiftLeft]; exact hle
  · exact lt_trans (key _ hv) hle

theorem iterate_unfoldStep_lt {w poly v : Nat} (hw : 1 ≤ w) (hp : poly < 2 ^ w) (hv : v < 2 ^ w) (k : Nat) :
    (unfoldStep w poly)^[k] v < 2 ^ w := by
  induction k generalizing v with
  | zero => exact hv
  | succ k ih => exact ih (unfoldStep_lt hw hp hv)

theorem unfold_lt {w poly v : Nat} (hw : 1 ≤ w) (hp : poly < 2 ^ w) (hv : v < 2 ^ w) : unfold w poly v < 2 ^ w :=
  iterate_unfoldStep_lt hw hp hv w

/-- R162: for an odd polynomial one iteration of Unfold undoes one ZStep. -/
theorem unfoldStep_zStep {w poly r : Nat} (hw : 1 ≤ w) (hw' : w ≤ 64) (ho : poly.testBit 0 = true) (hr : r < 2 ^ w) :
    unfoldStep w poly (zStep w poly r) = r := by
  have h0 : ((r <<< 1) &&& mask w).testBit 0 = false := by
    rw [Nat.testBit_and, Nat.testBit_shiftLeft]; simp
  have hbit : ∀ i, ((r <<< 1) &&& mask w).testBit (1 + i) = (decide (1 + i < w) && r.testBit i) := by
    intro i
    rw [Nat.testBit_and, testBit_mask hw', Nat.testBit_shiftLeft, Bool.and_comm]
    simp
  have htop : ∀ i, w - 1 < i → r.testBit i = false := fun i hi => testBit_of_lt hr (by omega)
  cases ht : r.testBit (w - 1)
  · simp only [zStep, ht, unfoldStep, Bool.false_eq_true, if_false, h0]
    apply Nat.eq_of_testBit_eq
    intro i
    rw [Nat.testBit_shiftRight, hbit]
    rcases lt_trichotomy i (w - 1) with h | h | h
    · simp [show 1 + i < w by omega]
    · subst h; simp [ht]
    · simp [htop i h]
  · have h0' : (((r <<< 1) &&& mask w) ^^^ poly).testBit 0 = true := by rw [Nat.testBit_xor, h0, ho]; rfl
    simp only [zStep, ht, unfoldStep, if_true, h0']
    rw [Nat.xor_assoc, Nat.xor_self, Nat.xor_zero]
    apply Nat.eq_of_testBit_eq
    intro i
    rw [Nat.testBit_or, Nat.testBit_shiftRight, hbit, Nat.one_shiftLeft, Nat.testBit_two_pow]
    rcases lt_trichotomy i (w - 1) with h | h | h
    · simp [show 1 + i < w by omega, show ¬ w - 1 = i by omega]
    · subst h; simp [ht]
    · simp [htop i h, show ¬ w - 1 = i by omega]

/-- R162: for an odd polynomial one ZStep undoes one iteration of Unfold. -/
theorem zStep_unfoldStep {w poly v : Nat} (hw : 1 ≤ w) (hw' : w ≤ 64) (ho : poly.testBit 0 = true) (hp : poly < 2 ^ w)
    (hv : v < 2 ^ w) : zStep w poly (unfoldStep w poly v) = v := by
  have hsh : ∀ x, x < 2 ^ w → (x >>> 1).testBit (w - 1) = false := by
    intro x hx
    rw [Nat.testBit_shiftRight]; exact testBit_of_lt hx (by omega)
  have hback : ∀ x, x < 2 ^ w → x.testBit 0 = false → ((x >>> 1) <<< 1) &&& mask w = x := by
    intro x hx h0
    apply Nat.eq_of_testBit_eq
    intro i
    rw [Nat.testBit_and, testBit_mask hw', Nat.testBit_shiftLeft, Nat.testBit_shiftRight]
    cases i with
    | zero => simp [h0]
    | succ i =>
      by_cases hi : i + 1 < w
      · simp [hi, Nat.add_comm]
      · simp [hi, testBit_of_lt hx (by omega : w ≤ i + 1)]
  cases ht : v.testBit 0
  · simp only [unfoldStep, ht, Bool.false_eq_true, if_false, zStep, hsh v hv]
    exact hback v hv ht
  · have hx := xor_lt hv hp
    have hx0 : (v ^^^ poly).testBit 0 = false := by rw [Nat.testBit_xor, ht, ho]; rfl
    have hb : (((v ^^^ poly) >>> 1) ||| (1 <<< (w - 1))).testBit (w - 1) = true := by
      rw [Nat.testBit_or, Nat.one_shiftLeft, Nat.testBit_two_pow]; simp
    have hs : ((((v ^^^ poly) >>> 1) ||| (1 <<< (w - 1))) <<< 1) &&& mask w = v ^^^ poly := by
      rw [Nat.shiftLeft_or_distrib, Nat.and_or_distrib_right, hback _ hx hx0]
      have : ((1 <<< (w - 1)) <<< 1) &&& mask w = 0 := by
        rw [← Nat.shiftLeft_add, show w - 1 + 1 = w by omega, and_mask hw', Nat.shiftLeft_eq]
        exact Nat.mul_mod_left _ _
      rw [this, Nat.or_zero]
    simp only [unfoldStep, ht, if_true, zStep, hb, hs]
    rw [Nat.xor_assoc, Nat.xor_self, Nat.xor_zero]

/-! ### Table -/

/-- R172: entry `i` of the table of a record. -/
@[simp] theorem tableOf_getElem (w poly : Nat) (refin : Bool) (i : Fin Config.tableEntries) :
    (tableOf w poly refin)[i] = word (tableValue w poly refin i.val) := by
  simp [tableOf]

theorem unfold_zero (w poly : Nat) : unfold w poly 0 = 0 := by
  have h : unfoldStep w poly 0 = 0 := by simp [unfoldStep]
  rw [unfold]
  generalize w = k at *
  suffices ∀ j, (unfoldStep k poly)^[j] 0 = 0 from this k
  intro j
  induction j with
  | zero => rfl
  | succ j ih => rw [Function.iterate_succ_apply, h, ih]

end Sys2Proof.Machine
end

