-- ==== Sys2Proof/Laws/Kernels.lean ====
section
/-! SUPPORT. The kernels' loops in terms of the linear division step: eight bit steps of each family on one byte, the fold
that carries the augmented register to the fast one, and the split of eight ZSteps into a table entry and a shift (R188
to R193). -/

namespace Sys2Proof.Machine

/-- Bit `j` of an input byte, moved to the top of the register by `j` places less: `w - 8 + j`. -/
theorem shiftLeft_bit_lt {w j : Nat} (b : Bool) (hj : j < w) : b.toNat <<< j < 2 ^ w := by
  rw [Nat.shiftLeft_eq]
  have h1 : b.toNat ≤ 1 := by cases b <;> simp
  calc b.toNat * 2 ^ j ≤ 1 * 2 ^ j := Nat.mul_le_mul_right _ h1
    _ < 2 ^ w := by rw [one_mul]; exact Nat.pow_lt_pow_right (by omega) hj

/-- R193: the fold carries one step of the augmented family to one step of the fast family. -/
theorem iterate_zStep_aStep {w : Nat} (hw : 1 ≤ w) (hw' : w ≤ 64) (poly r : Nat) (b : Bool) :
    (zStep w poly)^[w] (aStep w poly r b) = fStep w poly ((zStep w poly)^[w] r) b := by
  have hb : (zStep w poly)^[w] b.toNat = zStep w poly (b.toNat <<< (w - 1)) := by
    obtain ⟨k, rfl⟩ : ∃ k, w = k + 1 := ⟨w - 1, by omega⟩
    rw [Function.iterate_succ_apply', iterate_zStep_of_lt (by omega) hw' (by cases b <;> simp), Nat.add_sub_cancel]
  rw [aStep_eq hw hw', fStep_eq hw hw', iterate_zStep_xor, zStep_xor, hb, ← Function.iterate_succ_apply,
    Function.iterate_succ_apply']

/-- R193, on a whole input byte. -/
theorem iterate_zStep_eightBits {w : Nat} (hw : 1 ≤ w) (hw' : w ≤ 64) (poly r c : Nat) :
    (zStep w poly)^[w] (eightBits (aStep w poly) r c) = eightBits (fStep w poly) ((zStep w poly)^[w] r) c := by
  simp only [eightBits, List.foldl_cons, List.foldl_nil, iterate_zStep_aStep hw hw']

/-- R193, on a whole message: the augmented register, `w` zero bits later, is the fast register that started `w` zero
bits later. -/
theorem iterate_zStep_bitAugRegister (E : Engine) (hw : 1 ≤ E.width) (hw' : E.width ≤ 64) (r : Nat) (msg : List Byte) :
    (zStep E.width E.poly)^[E.width] (bitAugRegister E r msg)
      = bitFastRegister E ((zStep E.width E.poly)^[E.width] r) msg := by
  induction msg generalizing r with
  | nil => rfl
  | cons m msg ih =>
    simp only [bitAugRegister, bitFastRegister, List.foldl_cons] at ih ⊢
    rw [ih, iterate_zStep_eightBits hw hw']

/-- One byte of the fast family: the byte is XORed into the top of the register, and eight ZSteps follow. -/
theorem eightBits_fStep {w : Nat} (hw : 8 ≤ w) (hw' : w ≤ 64) (poly r : Nat) {c : Nat} (hc : c < 256) :
    eightBits (fStep w poly) r c = (zStep w poly)^[8] (r ^^^ (c <<< (w - 8))) := by
  have hsh : ∀ (b : Bool) (j : Nat), j < w - 1 → zStep w poly (b.toNat <<< j) = b.toNat <<< (j + 1) := by
    intro b j hj
    rw [zStep_of_lt (by omega) hw' (shiftLeft_bit_lt b hj), ← Nat.shiftLeft_add]
  have hbits : c <<< (w - 8) = ((c.testBit 7).toNat <<< (w - 1)) ^^^ ((c.testBit 6).toNat <<< (w - 2))
      ^^^ ((c.testBit 5).toNat <<< (w - 3)) ^^^ ((c.testBit 4).toNat <<< (w - 4)) ^^^ ((c.testBit 3).toNat <<< (w - 5))
      ^^^ ((c.testBit 2).toNat <<< (w - 6)) ^^^ ((c.testBit 1).toNat <<< (w - 7)) ^^^ ((c.testBit 0).toNat <<< (w - 8)) := by
    have e : c = ((c.testBit 7).toNat <<< 7) ^^^ ((c.testBit 6).toNat <<< 6) ^^^ ((c.testBit 5).toNat <<< 5)
        ^^^ ((c.testBit 4).toNat <<< 4) ^^^ ((c.testBit 3).toNat <<< 3) ^^^ ((c.testBit 2).toNat <<< 2)
        ^^^ ((c.testBit 1).toNat <<< 1) ^^^ ((c.testBit 0).toNat <<< 0) := by
      have : ∀ x : Fin 256, x.val = ((x.val.testBit 7).toNat <<< 7) ^^^ ((x.val.testBit 6).toNat <<< 6)
          ^^^ ((x.val.testBit 5).toNat <<< 5) ^^^ ((x.val.testBit 4).toNat <<< 4) ^^^ ((x.val.testBit 3).toNat <<< 3)
          ^^^ ((x.val.testBit 2).toNat <<< 2) ^^^ ((x.val.testBit 1).toNat <<< 1)
          ^^^ ((x.val.testBit 0).toNat <<< 0) := by decide +kernel
      exact this ⟨c, hc⟩
    conv_lhs => rw [e]
    simp only [Nat.shiftLeft_xor_distrib, ← Nat.shiftLeft_add]
    congr 1 <;> [skip; (congr 1; omega)]
    congr 1 <;> [skip; (congr 1; omega)]
    congr 1 <;> [skip; (congr 1; omega)]
    congr 1 <;> [skip; (congr 1; omega)]
    congr 1 <;> [skip; (congr 1; omega)]
    congr 1 <;> [skip; (congr 1; omega)]
    congr 1 <;> (congr 1; omega)
  have hz : ∀ (b : Bool) (k : Nat), k ≤ 7 → b.toNat <<< (w - 1) = (zStep w poly)^[k] (b.toNat <<< (w - 1 - k)) := by
    intro b k hk
    rw [iterate_zStep_of_lt (by omega) hw' (shiftLeft_bit_lt b (by omega)), ← Nat.shiftLeft_add]
    congr 1; omega
  rw [hbits]
  simp only [eightBits, List.foldl_cons, List.foldl_nil, fStep_eq (by omega : 1 ≤ w) hw']
  rw [hz (c.testBit 6) 1 (by omega), hz (c.testBit 5) 2 (by omega), hz (c.testBit 4) 3 (by omega),
    hz (c.testBit 3) 4 (by omega), hz (c.testBit 2) 5 (by omega), hz (c.testBit 1) 6 (by omega),
    hz (c.testBit 0) 7 (by omega)]
  simp only [Function.iterate_succ_apply, Function.iterate_zero, id_eq, zStep_xor, Nat.sub_sub, Nat.reduceAdd,
    Nat.xor_assoc]

/-- One byte of the augmented family: eight ZSteps, the byte entering at the bottom. -/
theorem eightBits_aStep {w : Nat} (hw : 8 ≤ w) (hw' : w ≤ 64) (poly r : Nat) {c : Nat} (hc : c < 256) :
    eightBits (aStep w poly) r c = (zStep w poly)^[8] r ^^^ c := by
  have hz : ∀ (b : Bool) (k : Nat), k ≤ 7 → (zStep w poly)^[k] b.toNat = b.toNat <<< k := by
    intro b k hk
    refine iterate_zStep_of_lt (by omega) hw' (lt_of_lt_of_le (?_ : b.toNat < 2 ^ 1) (Nat.pow_le_pow_right (by omega) (by omega)))
    cases b <;> simp
  have e : ∀ x : Fin 256, x.val = ((x.val.testBit 7).toNat <<< 7) ^^^ ((x.val.testBit 6).toNat <<< 6)
      ^^^ ((x.val.testBit 5).toNat <<< 5) ^^^ ((x.val.testBit 4).toNat <<< 4) ^^^ ((x.val.testBit 3).toNat <<< 3)
      ^^^ ((x.val.testBit 2).toNat <<< 2) ^^^ ((x.val.testBit 1).toNat <<< 1) ^^^ (x.val.testBit 0).toNat := by
    decide +kernel
  refine Eq.trans ?_ (congrArg (fun x => (zStep w poly)^[8] r ^^^ x) (e ⟨c, hc⟩).symm)
  dsimp only
  rw [← hz _ 7 (by omega), ← hz _ 6 (by omega), ← hz _ 5 (by omega), ← hz _ 4 (by omega), ← hz _ 3 (by omega),
    ← hz _ 2 (by omega), ← hz _ 1 (by omega)]
  simp only [eightBits, List.foldl_cons, List.foldl_nil, aStep_eq (by omega : 1 ≤ w) hw', zStep_xor,
    Function.iterate_succ_apply, Function.iterate_zero, id_eq, Nat.xor_assoc]

/-- Eight ZSteps of a register: those of its top byte alone, and the rest shifted up by eight (R192). -/
theorem iterate_zStep_eight {w : Nat} (hw : 8 ≤ w) (hw' : w ≤ 64) (poly y : Nat) :
    (zStep w poly)^[8] y = ((y <<< 8) &&& mask w) ^^^ (zStep w poly)^[8] ((y >>> (w - 8)) <<< (w - 8)) := by
  have hlo : y % 2 ^ (w - 8) < 2 ^ (w - 8) := Nat.mod_lt _ (Nat.two_pow_pos _)
  have hsplit : y = (y % 2 ^ (w - 8)) ^^^ ((y >>> (w - 8)) <<< (w - 8)) := by
    apply Nat.eq_of_testBit_eq
    intro i
    rw [Nat.testBit_xor, Nat.testBit_mod_two_pow, Nat.testBit_shiftLeft, Nat.testBit_shiftRight]
    by_cases hi : i < w - 8
    · simp [hi, show ¬ w - 8 ≤ i by omega]
    · simp [hi, show w - 8 ≤ i by omega, show w - 8 + (i - (w - 8)) = i by omega]
  have hm : (y <<< 8) &&& mask w = (y % 2 ^ (w - 8)) <<< 8 := by
    apply Nat.eq_of_testBit_eq
    intro i
    rw [Nat.testBit_and, testBit_mask hw', Nat.testBit_shiftLeft, Nat.testBit_shiftLeft, Nat.testBit_mod_two_pow]
    by_cases h8 : 8 ≤ i
    · by_cases hi : i < w
      · simp [h8, hi, show i - 8 < w - 8 by omega]
      · simp [hi, show ¬ i - 8 < w - 8 by omega]
    · simp [h8]
  conv_lhs => rw [hsplit]
  rw [iterate_zStep_xor, iterate_zStep_of_lt hw hw' hlo, hm]

/-- R39, R172: the table BuildTable makes is the one the table kernels need. -/
theorem engineTableRight_of_tableOf {E : Engine} (hw : 8 ≤ E.width) (hw' : E.width ≤ 64)
    (h : E.table = tableOf E.width E.poly E.refin) : EngineTableRight E := by
  intro i
  rw [h, tableOf_getElem, tableValue, if_pos hw]
  exact toNat_word_of_lt hw' (and_mask_lt hw' _)

/-- Every kernel result is below `2^w` (R185, R196). -/
theorem finBit_lt {E : Engine} (hw : E.width ≤ 64) (r : Nat) : finBit E r < 2 ^ E.width := and_mask_lt hw _

theorem finTbl_lt {E : Engine} (hw : E.width ≤ 64) (r : Nat) : finTbl E r < 2 ^ E.width := and_mask_lt hw _

end Sys2Proof.Machine
end

