-- ==== Sys2Proof/Laws/Commands.lean ====
section
/-! SUPPORT. For each command and each shared operation, everything it can answer, said once; and that every command
answers a next state. -/

namespace Sys2Proof.Machine

/-! ### Errors and STATUS -/

/-- The errors that carry no PE_* or NI_* information leave STATUS as `failed` says. -/
theorem raiseError_plain (op : BitVec 4) (s : State) :
    raiseError op .checkMismatch s = { s with status := failed op 0x04 s.status } ∧
    raiseError op .illegalCommand s = { s with status := failed op 0x05 s.status } ∧
    raiseError op .engineExists s = { s with status := failed op 0x06 s.status } ∧
    raiseError op .widthNotAligned s = { s with status := failed op 0x07 s.status } ∧
    raiseError op .bufferRange s = { s with status := failed op 0x08 s.status } ∧
    raiseError op .invalidOperand s = { s with status := failed op 0x0A s.status } :=
  ⟨rfl, rfl, rfl, rfl, rfl, rfl⟩

/-- NullInput reports its two references. -/
theorem raiseError_nullInput (op : BitVec 4) (e b : Bool) (s : State) :
    raiseError op (.nullInput e b) s
      = { s with status := { failed op 0x02 s.status with niEngine := e, niBuffer := b } } := rfl

/-- ParameterInvalid reports its four violations. -/
theorem raiseError_parameterInvalid (op : BitVec 4) (v : Violations) (s : State) :
    raiseError op (.parameterInvalid v) s
      = { s with status := { failed op 0x01 s.status with
            peWidth := v.invalidWidth, pePoly := v.invalidPoly, peInit := v.invalidInit, peXorout := v.invalidXorout } } :=
  rfl

theorem complete_eq (op : BitVec 4) (s : State) : complete op s = { s with status := succeeded op s.status } := rfl

theorem completeWith_eq (op : BitVec 4) (v : Nat) (s : State) :
    completeWith op v s = { s with result := word v, status := succeeded op s.status } := rfl

/-! ### The commands -/

theorem execReflect_cases (n : Nat) (s : State) :
    (1 ≤ n ∧ n ≤ 64 ∧ execReflect n s = .next (completeWith opReflect (reflect s.reflIn.toNat n) s)) ∨
    (¬ (1 ≤ n ∧ n ≤ 64) ∧ execReflect n s = .next (raiseError opReflect .invalidOperand s)) := by
  unfold execReflect
  split
  · rename_i h; exact .inl ⟨h.1, h.2, rfl⟩
  · rename_i h; exact .inr ⟨h, rfl⟩

theorem execCreate_cases (s : State) :
    (s.status.engine = true ∧ execCreate s = .next (raiseError opCreate .engineExists s)) ∨
    (s.status.engine = false ∧ (stagedViolations s).none = true ∧
      execCreate s = .next (complete opCreate (holdEngine (buildTable (loadEngine s))))) ∨
    (s.status.engine = false ∧ (stagedViolations s).none = false ∧
      execCreate s = .next (raiseError opCreate (.parameterInvalid (stagedViolations s)) s)) := by
  unfold execCreate
  cases he : s.status.engine <;> cases hv : (stagedViolations s).none <;> simp

theorem execDestroy_cases (s : State) :
    (s.status.engine = true ∧ execDestroy s = .next (complete opDestroy (releaseEngine s))) ∨
    (s.status.engine = false ∧ execDestroy s = .next (complete opDestroy s)) := by
  unfold execDestroy
  cases he : s.status.engine <;> simp

theorem execBuildTable_cases (s : State) :
    (s.status.engine = false ∧ execBuildTable s = .next (raiseError opBuildTable (.nullInput true false) s)) ∨
    (s.status.engine = true ∧ s.status.tableBuilt = true ∧ execBuildTable s = .next (completeWarning opBuildTable s)) ∨
    (s.status.engine = true ∧ s.status.tableBuilt = false ∧
      execBuildTable s = .next (complete opBuildTable (buildTable s))) := by
  unfold execBuildTable
  cases he : s.status.engine <;> cases hb : s.status.tableBuilt <;> simp

theorem runCommon_cases (k : KernelSel) (s : State) :
    (¬ (s.status.engine = true ∧ bufValid s = true) ∧
      runCommon k s = .next (raiseError opRun (.nullInput (!s.status.engine) (!bufValid s)) s)) ∨
    (s.status.engine = true ∧ bufValid s = true ∧ widthNotAligned (engineOf s) (resolve (engineOf s) k) = true ∧
      runCommon k s = .next (raiseError opRun .widthNotAligned s)) ∨
    (s.status.engine = true ∧ bufValid s = true ∧ widthNotAligned (engineOf s) (resolve (engineOf s) k) = false ∧
      bufferOutOfRange s = true ∧ runCommon k s = .next (raiseError opRun .bufferRange s)) ∨
    (s.status.engine = true ∧ bufValid s = true ∧ widthNotAligned (engineOf s) (resolve (engineOf s) k) = false ∧
      bufferOutOfRange s = false ∧
      runCommon k s = .next (completeWith opRun (runKernel (resolve (engineOf s) k) (engineOf s) (message s)) s)) := by
  unfold runCommon
  cases he : s.status.engine <;> cases hb : bufValid s <;>
    cases hw : widthNotAligned (engineOf s) (resolve (engineOf s) k) <;> cases hr : bufferOutOfRange s <;> simp

theorem selftestCommon_cases (k : KernelSel) (s : State) :
    (s.status.engine = false ∧ selftestCommon k s = .next (raiseError opSelftest (.nullInput true false) s)) ∨
    (s.status.engine = true ∧ widthNotAligned (engineOf s) (resolve (engineOf s) k) = true ∧
      selftestCommon k s = .next (raiseError opSelftest .widthNotAligned s)) ∨
    (s.status.engine = true ∧ widthNotAligned (engineOf s) (resolve (engineOf s) k) = false ∧
      runKernel (resolve (engineOf s) k) (engineOf s) rom = s.eng.params.check.toNat ∧
      selftestCommon k s = .next (complete opSelftest
        { s with result := word (runKernel (resolve (engineOf s) k) (engineOf s) rom) })) ∨
    (s.status.engine = true ∧ widthNotAligned (engineOf s) (resolve (engineOf s) k) = false ∧
      runKernel (resolve (engineOf s) k) (engineOf s) rom ≠ s.eng.params.check.toNat ∧
      selftestCommon k s = .next (raiseError opSelftest .checkMismatch
        { s with result := word (runKernel (resolve (engineOf s) k) (engineOf s) rom) })) := by
  unfold selftestCommon
  cases he : s.status.engine <;> cases hw : widthNotAligned (engineOf s) (resolve (engineOf s) k) <;>
    by_cases hv : runKernel (resolve (engineOf s) k) (engineOf s) rom = s.eng.params.check.toNat <;> simp [hv]

theorem execDebug_cases (s : State) :
    (¬ (s.status.engine = true ∧ bufValid s = true) ∧
      execDebug s = .next (raiseError opDebug (.nullInput (!s.status.engine) (!bufValid s)) s)) ∨
    (s.status.engine = true ∧ bufValid s = true ∧ bufferOutOfRange s = true ∧
      execDebug s = .next (raiseError opDebug .bufferRange s)) ∨
    (s.status.engine = true ∧ bufValid s = true ∧ bufferOutOfRange s = false ∧
      debugAgree (engineOf s) (message s) = true ∧
      execDebug s = .next (finishDebug true (decide ((engineOf s).width % 8 = 0)) none
        { s with dbg := debugResults (engineOf s) (message s), result := word (bitFast (engineOf s) (message s)) })) ∨
    (s.status.engine = true ∧ bufValid s = true ∧ bufferOutOfRange s = false ∧
      debugAgree (engineOf s) (message s) = false ∧
      execDebug s = .next (finishDebug false (decide ((engineOf s).width % 8 = 0)) (some .kernelDisagree)
        { s with dbg := debugResults (engineOf s) (message s) })) := by
  unfold execDebug
  cases he : s.status.engine <;> cases hb : bufValid s <;> cases hr : bufferOutOfRange s <;>
    cases ha : debugAgree (engineOf s) (message s) <;> simp [ha]

/-- Every command answers a next state (R302, R344). -/
theorem exec_answers_next (i : Instr) (s : State) : ∃ t, exec i s = .next t := by
  have hrun : ∀ k, ∃ t, runCommon k s = .next t := by
    intro k
    rcases runCommon_cases k s with ⟨_, h⟩ | ⟨_, _, _, h⟩ | ⟨_, _, _, _, h⟩ | ⟨_, _, _, _, h⟩ <;> exact ⟨_, h⟩
  have hself : ∀ k, ∃ t, selftestCommon k s = .next t := by
    intro k
    rcases selftestCommon_cases k s with ⟨_, h⟩ | ⟨_, _, h⟩ | ⟨_, _, _, h⟩ | ⟨_, _, _, h⟩ <;> exact ⟨_, h⟩
  cases i with
  | create => rcases execCreate_cases s with ⟨_, h⟩ | ⟨_, _, h⟩ | ⟨_, _, h⟩ <;> exact ⟨_, h⟩
  | destroy => rcases execDestroy_cases s with ⟨_, h⟩ | ⟨_, h⟩ <;> exact ⟨_, h⟩
  | buildTable => rcases execBuildTable_cases s with ⟨_, h⟩ | ⟨_, _, h⟩ | ⟨_, _, h⟩ <;> exact ⟨_, h⟩
  | runAuto => exact hrun .auto
  | runTblAug => exact hrun .tblAug
  | runTblFast => exact hrun .tblFast
  | runBitAug => exact hrun .bitAug
  | runBitFast => exact hrun .bitFast
  | debug =>
    rcases execDebug_cases s with ⟨_, h⟩ | ⟨_, _, _, h⟩ | ⟨_, _, _, _, h⟩ | ⟨_, _, _, _, h⟩ <;> exact ⟨_, h⟩
  | selftestAuto => exact hself .auto
  | selftestTblAug => exact hself .tblAug
  | selftestTblFast => exact hself .tblFast
  | selftestBitAug => exact hself .bitAug
  | selftestBitFast => exact hself .bitFast
  | reflect n => rcases execReflect_cases n s with ⟨_, _, h⟩ | ⟨_, h⟩ <;> exact ⟨_, h⟩

end Sys2Proof.Machine
end

