-- ==== Sys2Proof/Laws/Memory.lean ====
section
/-! SUPPORT. The message buffer: a read after a write, the canonical form, and what a little-endian write and read of
several bytes do (R14, R83, R89). -/

namespace Sys2Proof.Machine

/-! ### One byte -/

@[simp] theorem get?_set_same (m : Memory) (a : Nat) (v : Byte) : (m.set a v).get? a = some v := by
  induction m with
  | nil => simp [Memory.set, Memory.get?]
  | cons c m ih =>
    obtain ⟨b, u⟩ := c
    unfold Memory.set
    split
    · simp [Memory.get?]
    · split
      · simp [Memory.get?]
      · simp [Memory.get?, *]

theorem get?_set_other (m : Memory) {a b : Nat} (v : Byte) (h : b ≠ a) : (m.set a v).get? b = m.get? b := by
  induction m with
  | nil => simp [Memory.set, Memory.get?, h]
  | cons c m ih =>
    obtain ⟨d, u⟩ := c
    unfold Memory.set
    split
    · simp [Memory.get?, h]
    · split
      · subst d; simp [Memory.get?, h]
      · simp [Memory.get?, ih]

/-- The canonical form as a relation between all entries. -/
theorem wf_iff_pairwise (m : Memory) : m.wf = true ↔ m.Pairwise fun c d => c.1 < d.1 := by
  induction m with
  | nil => simp [Memory.wf]
  | cons c m ih =>
    cases m with
    | nil => simp [Memory.wf]
    | cons d m =>
      simp only [Memory.wf, Bool.and_eq_true, decide_eq_true_eq, ih, List.pairwise_cons, List.mem_cons]
      constructor
      · rintro ⟨h, hd, hm⟩
        refine ⟨?_, hd, hm⟩
        rintro e (rfl | he)
        · exact h
        · exact lt_trans h (hd e he)
      · rintro ⟨h, hd, hm⟩
        exact ⟨h d (Or.inl rfl), hd, hm⟩

theorem mem_set {m : Memory} {a : Nat} {v : Byte} {c : Host.Cell} (h : c ∈ m.set a v) : c = (a, v) ∨ c ∈ m := by
  induction m with
  | nil => simpa [Memory.set] using h
  | cons d m ih =>
    obtain ⟨b, u⟩ := d
    unfold Memory.set at h
    split at h
    · simpa using h
    · split at h
      · rcases List.mem_cons.1 h with h | h
        · exact .inl h
        · exact .inr (List.mem_cons_of_mem _ h)
      · rcases List.mem_cons.1 h with h | h
        · exact .inr (h ▸ List.mem_cons_self)
        · exact (ih h).imp_right (List.mem_cons_of_mem _)

/-- A write keeps the canonical form. -/
theorem wf_set {m : Memory} (a : Nat) (v : Byte) (h : m.wf = true) : (m.set a v).wf = true := by
  rw [wf_iff_pairwise] at h ⊢
  induction m with
  | nil => simp [Memory.set]
  | cons d m ih =>
    obtain ⟨b, u⟩ := d
    rw [List.pairwise_cons] at h
    unfold Memory.set
    split
    · rename_i hab
      refine List.pairwise_cons.2 ⟨?_, List.pairwise_cons.2 h⟩
      intro c hc
      rcases List.mem_cons.1 hc with rfl | hc
      · exact hab
      · exact lt_trans hab (h.1 c hc)
    · split
      · subst b; exact List.pairwise_cons.2 h
      · refine List.pairwise_cons.2 ⟨?_, ih h.2⟩
        intro c hc
        rcases mem_set hc with rfl | hc
        · simp only; omega
        · exact h.1 c hc

/-- A write inside the bounds keeps every entry inside them. -/
theorem inside_set {m : Memory} {a n : Nat} (v : Byte) (ha : a < n) (h : m.inside n = true) :
    (m.set a v).inside n = true := by
  simp only [Memory.inside, List.all_eq_true, decide_eq_true_eq] at h ⊢
  intro c hc
  rcases mem_set hc with rfl | hc
  · exact ha
  · exact h c hc

/-- Writing the byte an address already holds changes nothing. -/
theorem set_eq_self {m : Memory} {a : Nat} {v : Byte} (hw : m.wf = true) (h : m.get? a = some v) : m.set a v = m := by
  rw [wf_iff_pairwise] at hw
  induction m with
  | nil => simp [Memory.get?] at h
  | cons d m ih =>
    obtain ⟨b, u⟩ := d
    rw [List.pairwise_cons] at hw
    unfold Memory.get? at h
    unfold Memory.set
    split at h
    · subst b; simp at h; subst h; simp
    · rename_i hab
      have hm : (a, v) ∈ m := by
        clear ih hw
        induction m with
        | nil => simp [Memory.get?] at h
        | cons e m ih =>
          obtain ⟨c, w⟩ := e
          unfold Memory.get? at h
          split at h
          · subst c; simp at h; subst h; simp
          · exact List.mem_cons_of_mem _ (ih h)
      have := hw.1 _ hm
      simp only at this
      simp [show ¬ a < b by omega, hab, ih hw.2 h]

theorem State.byte_setByte_same (s : State) (a : Nat) (v : Byte) : (s.setByte a v).byte a = v := by
  simp [State.byte]

theorem State.byte_setByte_other (s : State) {a b : Nat} (v : Byte) (h : b ≠ a) : (s.setByte a v).byte b = s.byte b := by
  simp [State.byte, get?_set_other _ _ h]

/-! ### Several bytes -/

/-- Everything `memWrite` can do: it changes the message buffer alone. -/
theorem memWrite_frame (s : State) (a n v : Nat) : memWrite s a n v = { s with msgbuf := (memWrite s a n v).msgbuf } := by
  induction n generalizing s a v with
  | zero => rfl
  | succ n ih => exact ih (s.setByte a (BitVec.ofNat 8 v)) (a + 1) (v >>> 8)

theorem memWrite_byte_below (s : State) (a n v : Nat) {b : Nat} (h : b < a) : (memWrite s a n v).byte b = s.byte b := by
  induction n generalizing s a v with
  | zero => rfl
  | succ n ih =>
    rw [memWrite, ih _ _ _ (by omega), State.byte_setByte_other _ _ (by omega)]

theorem memWrite_byte_above (s : State) (a n v : Nat) {b : Nat} (h : a + n ≤ b) :
    (memWrite s a n v).byte b = s.byte b := by
  induction n generalizing s a v with
  | zero => rfl
  | succ n ih =>
    rw [memWrite, ih _ _ _ (by omega), State.byte_setByte_other _ _ (by omega)]

/-- R14: byte `v[8k+7:8k]` goes to address `a + k`. -/
theorem memWrite_byte (s : State) (a n v : Nat) {k : Nat} (h : k < n) :
    (memWrite s a n v).byte (a + k) = BitVec.ofNat 8 (v >>> (8 * k)) := by
  induction n generalizing s a v k with
  | zero => omega
  | succ n ih =>
    rw [memWrite]
    cases k with
    | zero => rw [memWrite_byte_below _ _ _ _ (by omega)]; simp [State.byte_setByte_same]
    | succ k =>
      rw [show a + (k + 1) = a + 1 + k by omega, ih _ _ _ (by omega : k < n), ← Nat.shiftRight_add]
      congr 2; omega

theorem memWrite_wf (s : State) (a n v : Nat) (h : s.msgbuf.wf = true) : (memWrite s a n v).msgbuf.wf = true := by
  induction n generalizing s a v with
  | zero => exact h
  | succ n ih => exact ih _ _ _ (by simpa using wf_set _ _ h)

theorem memWrite_inside (s : State) (a n v : Nat) {m : Nat} (ha : a + n ≤ m) (h : s.msgbuf.inside m = true) :
    (memWrite s a n v).msgbuf.inside m = true := by
  induction n generalizing s a v with
  | zero => exact h
  | succ n ih => exact ih _ _ _ (by omega) (by simpa using inside_set _ (by omega) h)

/-- R14: bit `i` of a little-endian read is bit `i mod 8` of byte `i / 8`. -/
theorem memRead_testBit (s : State) (a n i : Nat) :
    (memRead s a n).testBit i = (decide (i < 8 * n) && (s.byte (a + i / 8)).getLsbD (i % 8)) := by
  induction n generalizing a i with
  | zero => simp [memRead]
  | succ n ih =>
    rw [memRead, Nat.testBit_or, Nat.testBit_shiftLeft, ih]
    by_cases h : i < 8
    · simp [show ¬ 8 ≤ i by omega, show i < 8 * (n + 1) by omega, Nat.div_eq_of_lt h, Nat.mod_eq_of_lt h,
        BitVec.testBit_toNat]
    · have h1 : (s.byte a).toNat.testBit i = false :=
        Nat.testBit_lt_two_pow (lt_of_lt_of_le (s.byte a).isLt (Nat.pow_le_pow_right (by omega) (by omega)))
      simp only [h1, show 8 ≤ i by omega, decide_true, Bool.true_and, Bool.false_or]
      rw [show a + 1 + (i - 8) / 8 = a + i / 8 by omega, show (i - 8) % 8 = i % 8 by omega,
        show decide (i - 8 < 8 * n) = decide (i < 8 * (n + 1)) by rw [decide_eq_decide]; omega]

/-- A read depends on the bytes it reads alone. -/
theorem memRead_congr {s t : State} {a n : Nat} (h : ∀ k, k < n → s.byte (a + k) = t.byte (a + k)) :
    memRead s a n = memRead t a n := by
  induction n generalizing a with
  | zero => rfl
  | succ n ih =>
    rw [memRead, memRead, show s.byte a = t.byte a by simpa using h 0 (by omega), ih]
    intro k hk
    simpa [Nat.add_assoc, Nat.add_comm 1 k] using h (k + 1) (by omega)

end Sys2Proof.Machine
end

