-- ==== Sys2Proof/Laws/HostPort.lean ====
section
/-! SUPPORT. The host port and the turns: what a transaction reaches, what a write can do, what a host turn leaves of the
block, and the cases of one step. -/

namespace Sys2Proof.Machine

/-- R83: a transaction that reaches the message buffer lies wholly inside it and is aligned. -/
theorem target?_buffer {n off : Nat} {size : AccessSize} {a : Nat} (h : target? n off size = some (.buffer a)) :
    a = off - bufferBase ∧ bufferBase ≤ off ∧ off % size.bytes = 0 ∧ a + size.bytes ≤ n := by
  unfold target? at h
  split at h
  · split at h
    · split at h
      · cases hr : regAt? off <;> simp [hr] at h
      · simp at h
    · simp at h
  · split at h
    · rename_i hc
      simp only [Option.some.injEq, Target.buffer.injEq] at h
      subst h
      exact ⟨rfl, hc.1, hc.2.1, hc.2.2⟩
    · simp at h

/-- Everything a host write can do: nothing, an accepted register write, or an accepted buffer write. -/
theorem hostWrite_cases (s : State) (off : BitVec Config.addrBits) (size : AccessSize) (v : Word) :
    hostWrite s off size v = (s, .error) ∨
    (∃ r, s.status.busy = false ∧ target? s.bufBytes off.toNat size = some (.reg r) ∧ r.access ≠ .ro ∧
      hostWrite s off size v = (writeReg s r v, .okay)) ∨
    (∃ a, s.status.busy = false ∧ target? s.bufBytes off.toNat size = some (.buffer a) ∧
      hostWrite s off size v = (memWrite s a size.bytes v.toNat, .okay)) := by
  unfold hostWrite
  cases hb : s.status.busy
  · cases ht : target? s.bufBytes off.toNat size with
    | none => simp
    | some g =>
      cases g with
      | reg r => by_cases hr : r.access = .ro <;> simp [hr]
      | table i => simp
      | buffer a => simp
  · simp

/-- R88: a write while BUSY is refused. -/
theorem hostWrite_busy {s : State} (h : s.status.busy = true) (off : BitVec Config.addrBits) (size : AccessSize)
    (v : Word) : hostWrite s off size v = (s, .error) := by simp [hostWrite, h]

@[simp] theorem record_block (r : Response) (s : State) : (record r s).block = s.block := rfl
@[simp] theorem setProgram_block (p : List HostOp) (s : State) : (setProgram p s).block = s.block := rfl
@[simp] theorem setTurns_block (ts : List Turn) (s : State) : (setTurns ts s).block = s.block := rfl

/-- R88, R92: a transaction while a command is pending leaves the block as it is. -/
theorem hostTransaction_busy_block {s : State} (h : s.status.busy = true) (t : HostTxn) :
    (hostTransaction t s).block = s.block := by
  cases t with
  | read off size => rfl
  | write off size v => simp [hostTransaction, hostWrite_busy h]

/-- R95: the cases of one step. -/
theorem step_cases (s : State) :
    (∃ ts, s.turns = .host :: ts ∧ step s = .next (hostTurn (setTurns ts s))) ∨
    (∃ ts, s.turns = .engine :: ts ∧ step s = engineTurn (setTurns ts s)) ∨
    (∃ ts, s.turns = .reset :: ts ∧ step s = .next (resetInput (setTurns ts s))) ∨
    (s.turns = [] ∧ s.status.busy = true ∧ step s = completePending s) ∨
    (s.turns = [] ∧ s.status.busy = false ∧ step s = .next (hostTurn s)) := by
  unfold step takeTurn
  cases ht : s.turns with
  | nil => cases hb : s.status.busy <;> simp
  | cons a ts => cases a <;> simp

/-- R343: the completion step runs the command PENDING decodes to, or reports IllegalCommand. -/
theorem completePending_cases (s : State) :
    (∃ i, decode s.pending = .ok i ∧ completePending s = exec i s) ∨
    (∃ e, decode s.pending = .error e ∧ completePending s = .next (illegalCommand s)) := by
  unfold completePending
  cases h : decode s.pending with
  | ok i => exact .inl ⟨i, rfl, rfl⟩
  | error e => exact .inr ⟨e, rfl, rfl⟩

end Sys2Proof.Machine
end

