-- ==== Sys2Proof/Laws/PerInstr.lean ====
section
/-! SUPPORT. Statements made per instruction, about the instruction as syntax: the fields of its encoding (R120, R121). -/

namespace Sys2Proof.Laws.EncodeFields

/-- The command word of a well-formed command has the command's OP and KSEL in their fields, its operand in RN, and every
reserved bit 0 (R120, R121, R127). -/
def Statement (i : Instr) : Prop :=
  i.wellFormed = true →
    fieldOp (encode i) = i.op ∧ fieldKsel (encode i) = i.ksel ∧ fieldRn (encode i) = i.rn ∧
      reservedBitsClear (encode i) = true

theorem create : Statement .create := by intro _; decide

theorem destroy : Statement .destroy := by intro _; decide

theorem buildTable : Statement .buildTable := by intro _; decide

theorem runAuto : Statement .runAuto := by intro _; decide

theorem runTblAug : Statement .runTblAug := by intro _; decide

theorem runTblFast : Statement .runTblFast := by intro _; decide

theorem runBitAug : Statement .runBitAug := by intro _; decide

theorem runBitFast : Statement .runBitFast := by intro _; decide

theorem debug : Statement .debug := by intro _; decide

theorem selftestAuto : Statement .selftestAuto := by intro _; decide

theorem selftestTblAug : Statement .selftestTblAug := by intro _; decide

theorem selftestTblFast : Statement .selftestTblFast := by intro _; decide

theorem selftestBitAug : Statement .selftestBitAug := by intro _; decide

theorem selftestBitFast : Statement .selftestBitFast := by intro _; decide

theorem reflect (n : Nat) : Statement (.reflect n) := by
  intro _
  simp only [encode, Instr.op, Instr.ksel, Instr.rn]
  generalize BitVec.ofNat 7 n = x
  revert x
  decide

end Sys2Proof.Laws.EncodeFields
end

