-- ==== Sys2Proof/Tests/Slice0.lean ====
section
/-! SUPPORT. The model's own tests: the well-formedness smoke, words written out from 30_encoding.md, the vectors of
95_test_vectors.md (the section stands at each test), and for every obligation with hypotheses a concrete state that
meets them. -/

namespace Sys2Proof.Tests

open Sys2Proof Sys2Proof.Machine

/- One test after the other: each evaluated test holds a thread of its own while it waits for the kernel. -/
set_option Elab.async false

/-! ### Small states -/

/-- The next state of an answer. -/
def after (r : Result) : State :=
  match r with
  | .next s => s
  | .fault f => nomatch f
  | .refused _ => State.reset

/-- EMPTY, with a record staged. -/
def emptyWith (cfg poly init xorout check : Word) : State :=
  { State.reset with staged := { cfg := cfg, poly := poly, init := init, xorout := xorout, check := check,
                                 name := 0x43, userdata := 0x7 } }

/-- READY, by CREATE on the record. -/
def readyWith (cfg poly init xorout check : Word) : State := after (exec .create (emptyWith cfg poly init xorout check))

/-- The message "123456789" described from address 0. -/
def withM (s : State) : State :=
  { s with
    msgbuf := [(0, 0x31), (1, 0x32), (2, 0x33), (3, 0x34), (4, 0x35), (5, 0x36), (6, 0x37), (7, 0x38), (8, 0x39)]
    bufLen := 9
    bufCtrl := 1 }

/-- A message of one byte at address 0. -/
def withByte (b : Byte) (s : State) : State := { s with msgbuf := [(0, b)], bufLen := 1, bufCtrl := 1 }

/-- A command word pending. -/
def pend (c : Word) (s : State) : State := { s with pending := c, status := { s.status with busy := true } }

/-- The STATUS word a command leaves. -/
def statusAfter (i : Instr) (s : State) : Word := statusWord (after (exec i s)).status

/-- The RESULT a command leaves. -/
def resultAfter (i : Instr) (s : State) : Word := (after (exec i s)).result

def crc32 : State := readyWith 0x320 0x04C11DB7 0xFFFFFFFF 0xFFFFFFFF 0xCBF43926
def arc : State := readyWith 0x310 0x8005 0 0 0xBB3D
def modbus : State := readyWith 0x310 0x8005 0xFFFF 0 0x4B37
def xmodem : State := readyWith 0x010 0x1021 0 0 0x31C3
def mixed : State := readyWith 0x210 0x1021 0xFFFF 0 0
def usb5 : State := readyWith 0x305 0x05 0x1F 0x1F 0x19
def parity : State := readyWith 0x001 0x1 0 0 0x1
def even8 : State := readyWith 0x008 0x02 0x80 0 0
def crc8 : State := readyWith 0x008 0x07 0 0 0xF4

/-! ### Well-formedness and decoding -/

/-- R121: an operand that does not fit RN has no encoding. -/
theorem test_wellFormed_refuses_wide_rn : (Instr.reflect 128).wellFormed = false := by decide

/-- R124: every 7-bit value has one. -/
theorem test_wellFormed_accepts_rn : (Instr.reflect 127).wellFormed = true ∧ (Instr.reflect 0).wellFormed = true := by
  decide

/-- R120: bits 63:15, RN, bit 7, KSEL, OP of one word of every family, from the top. -/
theorem test_decode_bits :
    decode (0#49 ++ 0b0000000#7 ++ 0#1 ++ 0b000#3 ++ 0b0001#4) = .ok .create ∧
    decode (0#49 ++ 0b0000000#7 ++ 0#1 ++ 0b000#3 ++ 0b0010#4) = .ok .destroy ∧
    decode (0#49 ++ 0b0000000#7 ++ 0#1 ++ 0b000#3 ++ 0b0011#4) = .ok .buildTable ∧
    decode (0#49 ++ 0b0000000#7 ++ 0#1 ++ 0b000#3 ++ 0b0101#4) = .ok .debug := by decide

/-- R123: the five kernel selects of RUN. -/
theorem test_decode_bits_run :
    decode (0#49 ++ 0b0000000#7 ++ 0#1 ++ 0b000#3 ++ 0b0100#4) = .ok .runAuto ∧
    decode (0#49 ++ 0b0000000#7 ++ 0#1 ++ 0b001#3 ++ 0b0100#4) = .ok .runTblAug ∧
    decode (0#49 ++ 0b0000000#7 ++ 0#1 ++ 0b010#3 ++ 0b0100#4) = .ok .runTblFast ∧
    decode (0#49 ++ 0b0000000#7 ++ 0#1 ++ 0b011#3 ++ 0b0100#4) = .ok .runBitAug ∧
    decode (0#49 ++ 0b0000000#7 ++ 0#1 ++ 0b100#3 ++ 0b0100#4) = .ok .runBitFast := by decide

/-- R123: the five kernel selects of SELFTEST. -/
theorem test_decode_bits_selftest :
    decode (0#49 ++ 0b0000000#7 ++ 0#1 ++ 0b000#3 ++ 0b0110#4) = .ok .selftestAuto ∧
    decode (0#49 ++ 0b0000000#7 ++ 0#1 ++ 0b001#3 ++ 0b0110#4) = .ok .selftestTblAug ∧
    decode (0#49 ++ 0b0000000#7 ++ 0#1 ++ 0b010#3 ++ 0b0110#4) = .ok .selftestTblFast ∧
    decode (0#49 ++ 0b0000000#7 ++ 0#1 ++ 0b011#3 ++ 0b0110#4) = .ok .selftestBitAug ∧
    decode (0#49 ++ 0b0000000#7 ++ 0#1 ++ 0b100#3 ++ 0b0110#4) = .ok .selftestBitFast := by decide

/-- R124: the bit count of REFLECT. -/
theorem test_decode_bits_reflect :
    decode (0#49 ++ 0b0010000#7 ++ 0#1 ++ 0b000#3 ++ 0b0111#4) = .ok (.reflect 16) ∧
    decode (0#49 ++ 0b1111111#7 ++ 0#1 ++ 0b000#3 ++ 0b0111#4) = .ok (.reflect 127) := by decide

/-- 95_test_vectors.md §2.10: the illegal words, each by the test of R125 it fails. -/
theorem test_decode_illegal :
    decode 0x00 = .error .reservedOp ∧ decode 0x08 = .error .reservedOp ∧ decode 0x0F = .error .reservedOp ∧
    decode 0x15 = .error .unusedKsel ∧ decode 0x54 = .error .reservedKsel ∧ decode 0x74 = .error .reservedKsel ∧
    decode 0x84 = .error .reservedBits ∧ decode 0x104 = .error .unusedRn ∧ decode 0x17 = .error .unusedKsel ∧
    decode 0x8007 = .error .reservedBits ∧ decode 0x100000001 = .error .reservedBits := by decide

/-- The opcode table's numbering: a 64-bit row, and a number past 64 bits. -/
theorem test_decodeTableWord :
    decodeTableWord 64 0x4007 = some (.reflect 64) ∧ decodeTableWord 64 0x08 = none ∧
    decodeTableWord 72 (2 ^ 64 + 1) = none := by decide

/-! ### The commands (95_test_vectors.md) -/

/-- §2.2, §2.3, §2.4: CREATE of CRC-32. -/
theorem test_create : statusWord crc32.status = 0x01000003 ∧ readReg crc32 .eInitNodirect = 0x46AF6449 ∧
    crc32.table[1] = 0x77073096 := by decide +kernel

/-- §2.2: WIDTH 0 with POLY 0x07 violates two checks. -/
theorem test_create_violations : statusAfter .create (emptyWith 0 0x07 0 0 0) = 0x01030108 ∧
    statusAfter .create (emptyWith 0x010 0x8005 0x10000 0x1FFFF 0) = 0x010C0108 := by decide +kernel

/-- §2.9. -/
theorem test_destroy : statusAfter .destroy crc32 = 0x02000000 ∧
    readReg (after (exec .destroy crc32)) .eInitNodirect = 0 ∧ (after (exec .destroy crc32)).table[1] = 0 := by
  decide +kernel

/-- §2.9. -/
theorem test_buildTable : statusAfter .buildTable arc = 0x03000013 ∧ (after (exec .buildTable arc)).table[1] = 0xC0C1 ∧
    statusAfter .buildTable State.reset = 0x03100208 := by decide +kernel

/-- §2.5.1: the catalog check of CRC-32. -/
theorem test_runAuto : resultAfter .runAuto (withM crc32) = 0xCBF43926 := by decide +kernel

/-- §2.5.3: both references absent; and a buffer address that must not wrap. -/
theorem test_runAuto_errors : statusAfter .runAuto State.reset = 0x04300208 ∧
    statusAfter .runAuto { xmodem with bufAddr := 0xFFFFFFFFFFFFFFFF, bufLen := 1, bufCtrl := 1 } = 0x0400080B := by
  decide +kernel

/-- §2.5.1. -/
theorem test_runTblAug : resultAfter .runTblAug (withM arc) = 0xBB3D := by decide +kernel

/-- §2.5.3: WidthNotAligned comes before BufferRange. -/
theorem test_runTblAug_unaligned :
    statusAfter .runTblAug { usb5 with bufAddr := 4096, bufLen := 1, bufCtrl := 1 } = 0x0400070B := by decide +kernel

/-- §2.5.1: `refin = 0`, `refout = 1`. -/
theorem test_runTblFast_mixed_reflection : resultAfter .runTblFast (withM mixed) = 0x8D94 := by decide +kernel

/-- §2.5.1. -/
theorem test_runTblFast : resultAfter .runTblFast (withByte 0x41 xmodem) = 0x58E5 := by decide +kernel

/-- §2.5.1: a width of 5. -/
theorem test_runBitAug : resultAfter .runBitAug (withM usb5) = 0x19 := by decide +kernel

/-- §2.7: the augmented family on an even polynomial. -/
theorem test_runBitAug_even : resultAfter .runBitAug (withM even8) = 0xEA := by decide +kernel

/-- §2.5.1: a width of 1. -/
theorem test_runBitFast : resultAfter .runBitFast (withM parity) = 0x1 := by decide +kernel

/-- §2.7: the fast family on the same even polynomial. -/
theorem test_runBitFast_even : resultAfter .runBitFast (withM even8) = 0xEE := by decide +kernel

/-- §2.8. -/
theorem test_debug : statusAfter .debug (withM modbus) = 0x05000063 ∧ resultAfter .debug (withM modbus) = 0x4B37 := by
  decide +kernel

/-- §2.8: an even polynomial whose families disagree. -/
theorem test_debug_disagree : statusAfter .debug (withM even8) = 0x0500094B ∧
    (after (exec .debug (withM even8))).dbg = { tblAug := 0xEA, tblFast := 0xEE, bitAug := 0xEA, bitFast := 0xEE } := by
  decide +kernel

/-- §2.8. -/
theorem test_selftestAuto : statusAfter .selftestAuto crc32 = 0x06000003 ∧
    resultAfter .selftestAuto (readyWith 0x320 0x04C11DB7 0xFFFFFFFF 0xFFFFFFFF 0xCBF43927) = 0xCBF43926 := by
  decide +kernel

/-- §2.8: NI_BUFFER stays 0. -/
theorem test_selftestAuto_empty : statusAfter .selftestAuto State.reset = 0x06100208 := by decide +kernel

/-- §2.8. -/
theorem test_selftestTblAug_unaligned : statusAfter .selftestTblAug usb5 = 0x0600070B := by decide +kernel

/-- §2.8, each catalog entry with each KSEL. -/
theorem test_selftestTblAug : resultAfter .selftestTblAug modbus = 0x4B37 := by decide +kernel

/-- §2.8. -/
theorem test_selftestTblFast : resultAfter .selftestTblFast xmodem = 0x31C3 := by decide +kernel

/-- §2.8. -/
theorem test_selftestBitAug : statusAfter .selftestBitAug usb5 = 0x06000003 ∧ resultAfter .selftestBitAug usb5 = 0x19 := by
  decide +kernel

/-- §2.8: a check wider than the width. -/
theorem test_selftestBitFast :
    statusAfter .selftestBitFast (readyWith 0x320 0x04C11DB7 0xFFFFFFFF 0xFFFFFFFF 0x1CBF43926) = 0x0600040B := by
  decide +kernel

/-- §2.1. -/
theorem test_reflect : resultAfter (.reflect 64) { State.reset with reflIn := 0x0123456789ABCDEF } = 0xF7B3D591E6A2C480 ∧
    resultAfter (.reflect 5) { State.reset with reflIn := 0x1D } = 0x17 := by decide +kernel

/-- §2.1. -/
theorem test_reflect_invalid : statusAfter (.reflect 0) State.reset = 0x07000A08 ∧
    statusAfter (.reflect 65) State.reset = 0x07000A08 := by decide +kernel

/-- §2.10: LASTOP is the word's low four bits. -/
theorem test_illegal : statusWord (after (completePending (pend 0x08 State.reset))).status = 0x08000508 := by
  decide +kernel

/-! ### Seeds, the host port and the step -/

/-- §2.3: an even polynomial's seed has no non-direct form. -/
theorem test_unfold_even : unfold 8 0x02 0x80 = 0x81 ∧ fold 8 0x02 0x81 = 0x00 := by decide +kernel

/-- §2.11. -/
theorem test_host_reads :
    hostRead State.reset 0x000 .b8 = (0x4352434500000007, .okay) ∧ hostRead State.reset 0x010 .b4 = (0, .error) ∧
    hostRead State.reset 0x014 .b8 = (0, .error) ∧ hostRead State.reset 0x008 .b8 = (0, .error) ∧
    hostRead State.reset 0x100 .b8 = (0, .okay) ∧ hostRead State.reset 0x1000 .b8 = (0, .error) ∧
    (hostRead (withM State.reset) 0x10000 .b4) = (0x34333231, .okay) := by decide +kernel

/-- §2.11. -/
theorem test_host_writes :
    (hostWrite State.reset 0x108 .b8 1).2 = .error ∧ (hostWrite State.reset 0x808 .b8 1).2 = .error ∧
    readReg (hostWrite State.reset 0x010 .b8 0xFFFFFFFFFFFFFFFF).1 .pCfg = 0xF7F ∧
    readReg (hostWrite State.reset 0x150 .b8 0xFF).1 .bufCtrl = 0x1 ∧
    (hostWrite State.reset 0x10000 .b2 0x3231).1.msgbuf = [(0, 0x31), (1, 0x32)] ∧
    (hostWrite State.reset 0x10001 .b2 0x3231).2 = .error ∧ (hostWrite State.reset 0x10FF8 .b8 0).2 = .okay ∧
    (hostWrite State.reset 0x10FFC .b8 0).2 = .error ∧ (hostWrite State.reset 0x11000 .b1 0).2 = .error := by
  decide +kernel

/-- R276 and §2.12: the suffixes of CRC-32 and XModem. -/
theorem test_suffix : suffixBytes (engineOf crc32) 0xCBF43926 = [0x26, 0x39, 0xF4, 0xCB] ∧
    suffixBytes (engineOf xmodem) 0x31C3 = [0x31, 0xC3] := by decide +kernel

/-- R345: with nothing pending and nothing left to do the block waits. -/
theorem test_step_waits : step State.reset = .next State.reset := rfl

/-! ### The canonical form and the invariant -/

/-- The reset memory has the canonical form. -/
theorem test_reset_memory_wf : State.reset.msgbuf.wf = true := by decide

/-- CREATE of the CRC-8 record. -/
theorem create_crc8 : exec .create (emptyWith 0x008 0x07 0 0 0xF4)
    = .next (complete opCreate (holdEngine (buildTable (loadEngine (emptyWith 0x008 0x07 0 0 0xF4))))) := by
  rcases execCreate_cases (emptyWith 0x008 0x07 0 0 0xF4) with ⟨h, _⟩ | ⟨_, _, h⟩ | ⟨_, h, _⟩
  · exact absurd h (by decide)
  · exact h
  · exact absurd h (by decide)

theorem crc8_table : crc8.table = tableOf 8 0x07 false := by
  show (after (exec .create _)).table = _
  rw [create_crc8]
  simp only [after, complete_table, holdEngine_table, buildTable_table]
  rfl

/-- A READY state with a message, as `Inv` wants it: the engine of CRC-8, whose polynomial is odd. -/
theorem inv_crc8 : Inv (withM crc8) where
  bufBytes_pos := by decide +kernel
  bufBytes_le := by decide +kernel
  memory_wf := by decide +kernel
  memory_inside := by decide +kernel
  staged_reserved := by decide +kernel
  eng_reserved := by decide +kernel
  bufCtrl_reserved := by decide +kernel
  held := fun _ =>
    { width_pos := by decide +kernel
      width_le := by decide +kernel
      poly_fits := by decide +kernel
      init_fits := by decide +kernel
      xorout_fits := by decide +kernel
      crcmask := by decide +kernel
      highbit := by decide +kernel
      initDirect := by decide +kernel
      initNodirect := by decide +kernel
      table := by
        intro i
        show crc8.table[i] = word (tableValue 8 0x07 false i.val)
        rw [crc8_table, tableOf_getElem]
      built := by decide +kernel }
  absent := fun h => absurd h (by decide +kernel)
  last := by constructor <;> decide +kernel

theorem sound_crc8 : EngineSound (engineOf crc8) := by constructor <;> decide +kernel

theorem tableRight_crc8 : EngineTableRight (engineOf crc8) :=
  engineTableRight_of_tableOf (by decide +kernel) (by decide +kernel) crc8_table

/-- An Engine of the largest width, reflected, with an odd polynomial. -/
def engine64 : Engine :=
  { width := 64, poly := 0x42F0E1EBA9EA3693, refin := true, refout := true, swap := false, fast := true,
    xorout := 2 ^ 64 - 1, initDirect := 2 ^ 64 - 1, initNodirect := 0x5FACF9AE1837A90F,
    table := tableOf 64 0x42F0E1EBA9EA3693 true }

theorem sound_engine64 : EngineSound engine64 := by constructor <;> decide +kernel

/-! ### Witnesses: for every obligation with hypotheses, values that meet them together -/

/-- The ends of REFLECT's range of legal counts, and the nearest counts outside it. -/
theorem witness_ReflectReversesTheLowBits : (1 ≤ 1 ∧ 1 ≤ 64) ∧ (1 ≤ 64 ∧ 64 ≤ 64) ∧ (0 = 0 ∨ 64 < 0) ∧ (65 = 0 ∨ 64 < 65) := by decide

theorem witness_DecodeOfEncodeIsTheCommand : (Instr.reflect 0).wellFormed = true ∧ (Instr.reflect 127).wellFormed = true ∧
    Instr.selftestBitFast.wellFormed = true := by decide

theorem witness_EncodeOfDecodeIsTheWord : decode 0x46 = .ok .selftestBitFast ∧ decode 0x7F07 = .ok (.reflect 127) := by
  decide

theorem witness_DecodeRejectsExactlyTheIllegalWords : decode 0x4007 = .ok (.reflect 64) ∧
    decode 0x8000 = .error .reservedBits := by decide

theorem witness_IllegalCommandChangesNothingElse : decode (pend 0x54 crc8).pending = .error .reservedKsel := by
  decide +kernel

theorem witness_StepRunsThePendingCommand :
    let s := { pend 0x04 (withM crc8) with turns := [.engine, .host] }
    s.status.busy = true ∧ decode s.pending = .ok .runAuto ∧ s.turns = .engine :: [.host] ∧
    (pend 0x04 crc8).status.busy = true ∧ decode (pend 0x04 crc8).pending = .ok .runAuto ∧ (pend 0x04 crc8).turns = [] ∧
    0x4007 < 2 ^ 64 ∧ decode (BitVec.ofNat 64 0x4007) = .ok (.reflect 64) := by decide +kernel

theorem witness_EngineHasNoStepWhileIdle :
    let idle := { State.reset with turns := [.engine] }
    let busy := { pend 0x5 State.reset with turns := [.engine] }
    idle.turns = .engine :: [] ∧ idle.status.busy = false ∧ busy.turns = .engine :: [] ∧ busy.status.busy = true := by
  decide

theorem witness_StepKeepsTheMachineInvariant : Inv (withM crc8) ∧ step (withM crc8) = .next (hostTurn (withM crc8)) :=
  ⟨inv_crc8, by
    rcases step_cases (withM crc8) with ⟨ts, h, _⟩ | ⟨ts, h, _⟩ | ⟨ts, h, _⟩ | ⟨_, h, _⟩ | ⟨_, _, h⟩
    · exact absurd h (by rw [show (withM crc8).turns = [] by decide +kernel]; simp)
    · exact absurd h (by rw [show (withM crc8).turns = [] by decide +kernel]; simp)
    · exact absurd h (by rw [show (withM crc8).turns = [] by decide +kernel]; simp)
    · exact absurd h (by decide +kernel)
    · exact h⟩

theorem witness_ResetInputAbandonsThePendingCommand :
    { pend 0x04 (withM crc8) with turns := [.reset, .host] }.turns = .reset :: [.host] := by decide

/-- The edges of each region: accepted on one side, not on the other. -/
theorem witness_OnlyMappedAlignedTransactionsAreAccepted :
    let ok := fun (o : BitVec 17) (size : AccessSize) => (hostRead State.reset o size).2 = .okay
    ok 0x000 .b8 ∧ ¬ ok 0x000 .b4 ∧ ¬ ok 0x008 .b8 ∧ ¬ ok 0x014 .b8 ∧ ok 0x158 .b8 ∧ ¬ ok 0x7F8 .b8 ∧
    ok 0x800 .b8 ∧ ok 0xFF8 .b8 ∧ ¬ ok 0x1000 .b8 ∧ ¬ ok 0xFFFF .b1 ∧
    ok 0x10000 .b8 ∧ ok 0x10FFF .b1 ∧ ¬ ok 0x11000 .b1 ∧ ok 0x10FF8 .b8 ∧ ¬ ok 0x10FFC .b8 ∧ ¬ ok 0x1FFFF .b1 := by
  simp only [hostRead]
  decide +kernel

/-- A warning, an agreement, a violation and an absent Engine, each with the error code the statement gives it. -/
theorem witness_CompletionRewritesTheLastCommandFields :
    let done := fun s : State => (after (completePending s)).status
    (done (pend 0x3 crc8)).warn = true ∧ (done (pend 0x5 (withM crc8))).agree = true ∧
    (done (pend 0x5 (withM crc8))).dbgTbl = true ∧
    (done (pend 0x1 State.reset)).peWidth = true ∧ (done (pend 0x1 State.reset)).errcode = 0x01 ∧
    (done (pend 0x4 State.reset)).niEngine = true ∧ (done (pend 0x4 State.reset)).errcode = 0x02 := by decide +kernel

theorem witness_RegistersReadBackAndReadOnlyOnesRefuseWrites : Reg.status.access = .ro ∧ Reg.eCfg.access = .ro := by decide

theorem witness_WritableBitsAreStoredAndReadBack : (withM crc8).status.busy = false ∧
    (Reg.pCfg, (0xF7F : Word)) ∈ [(Reg.pCfg, (0xF7F : Word))] ∧ (Reg.bufCtrl, (0x1 : Word)) ∈ [(Reg.bufCtrl, (0x1 : Word))] := by
  decide +kernel

theorem witness_CmdWriteLatchesThePendingCommand : crc8.status.busy = false := by decide +kernel

theorem witness_BusyRefusesEveryWriteAndNoRead :
    (pend 0x04 crc8).status.busy = true ∧ (0x110 : BitVec 17) ≠ 0x108 := by decide +kernel

/-- The first and the last aligned transaction of each size in a buffer of 4096 bytes. -/
theorem witness_BufferTransactionsAreLittleEndian :
    let fits := fun (o : BitVec 17) (z : AccessSize) =>
      0x10000 ≤ o.toNat ∧ o.toNat % z.bytes = 0 ∧ o.toNat - 0x10000 + z.bytes ≤ State.reset.bufBytes
    fits 0x10000 .b1 ∧ fits 0x10000 .b8 ∧ fits 0x10FFF .b1 ∧ fits 0x10FFE .b2 ∧ fits 0x10FFC .b4 ∧ fits 0x10FF8 .b8 ∧
      State.reset.status.busy = false := by decide

theorem witness_ReadsAndRepeatedWritesHaveNoSideEffect :
    (withM crc8).msgbuf.wf = true ∧ (0x10002 : BitVec 17) ≠ 0x100 := by decide +kernel

theorem witness_HostTurnsWhileBusyDoNotChangeTheCompletion :
    let s := { pend 0x44 (withM crc8) with turns := [.host, .host, .engine] }
    s.status.busy = true ∧ s.turns = List.replicate 2 .host ++ .engine :: [] := by decide +kernel

theorem witness_CommandIsAcceptedPendsAndCompletes :
    let s := { withM crc8 with program := [asmCmd .runBitFast, asmWait], turns := [.host, .engine] }
    Instr.runBitFast.wellFormed = true ∧ s.status.busy = false ∧ s.program = asmCmd .runBitFast :: [asmWait] ∧
    s.turns = .host :: .engine :: [] ∧ (pend 0x44 s).status.busy = true := by decide +kernel

theorem witness_WaitEndsAfterTheCompletion :
    let s := { pend 0x44 (withM crc8) with program := [asmWait, asmR .result] }
    s.status.busy = true ∧ s.turns = [] ∧ s.program = .wait :: [asmR .result] := by decide +kernel

theorem witness_ReflectorIsAnXorLinearInvolution : (1 ≤ 1 ∧ 1 ≤ 64 ∧ 1 < 2 ^ 1) ∧ (1 ≤ 64 ∧ 64 ≤ 64 ∧ 2 ^ 64 - 1 < 2 ^ 64) := by
  decide

/-- The widths 1 and 64 with the largest values that fit. -/
theorem witness_CreateBuildsTheEngineOfAValidRecord :
    let ok := fun s : State => let w := cfgWidth s.staged.cfg
      s.status.engine = false ∧ 1 ≤ w ∧ w ≤ 64 ∧ s.staged.poly.toNat < 2 ^ w ∧ s.staged.init.toNat < 2 ^ w ∧
        s.staged.xorout.toNat < 2 ^ w
    ok (emptyWith 0x001 1 1 1 0) ∧
      ok (emptyWith 0x040 0xFFFFFFFFFFFFFFFF 0xFFFFFFFFFFFFFFFF 0xFFFFFFFFFFFFFFFF 0) ∧ ok (emptyWith 0xF08 0x02 0xFF 0xFF 0) := by
  decide

/-- The widths 0, 65 and 127, and values one bit too wide. -/
theorem witness_CreateReportsEveryViolationAndBuildsNothing :
    let bad := fun s : State => let w := cfgWidth s.staged.cfg
      let fits := fun v : Word => decide (64 < w ∨ v.toNat < 2 ^ w)
      s.status.engine = false ∧
        ¬ (1 ≤ w ∧ w ≤ 64 ∧ fits s.staged.poly = true ∧ fits s.staged.init = true ∧ fits s.staged.xorout = true)
    bad (emptyWith 0x000 0 0 0 0) ∧ bad (emptyWith 0x041 0xFFFFFFFFFFFFFFFF 0 0 0) ∧ bad (emptyWith 0x07F 0 0 0 0) ∧
      bad (emptyWith 0x008 0x100 0 0 0) ∧ bad (emptyWith 0x001 1 2 0 0) ∧ bad (emptyWith 0x03F 1 0 0x8000000000000000 0) := by
  decide

theorem witness_CreateWhileReadyLeavesTheEngine : crc8.status.engine = true := by decide +kernel

theorem witness_DestroyReleasesTheEngine : crc8.status.engine = true ∧ State.reset.status.engine = false := by
  decide +kernel

theorem witness_BuildTableIsIdempotent :
    (crc8.status.engine = true ∧ crc8.status.tableBuilt = true) ∧ State.reset.status.engine = false ∧
    (let s := { crc8 with status := { crc8.status with tableBuilt := false } }
     s.status.engine = true ∧ s.status.tableBuilt = false) := by decide +kernel

/-- A reset, and a CREATE that builds an Engine. -/
theorem witness_EngineChangesOnlyByCreateDestroyAndReset :
    let s := { withM crc8 with turns := [.reset] }
    Inv s ∧ ∃ t, step s = .next t ∧ t.status.engine ≠ s.status.engine := by
  refine ⟨?_, _, rfl, by decide +kernel⟩
  obtain ⟨a, b, c, d, e, f, g, h, i, j⟩ := inv_crc8
  exact ⟨a, b, c, d, e, f, g, fun x => ⟨(h x).1, (h x).2, (h x).3, (h x).4, (h x).5, (h x).6, (h x).7, (h x).8, (h x).9,
    (h x).10, (h x).11⟩, fun x => ⟨(i x).1, (i x).2, (i x).3⟩, j⟩

theorem witness_MessageIsTheDescribedBytesInOrder : 0 < (withM crc8).bufLen.toNat ∧ 8 < (withM crc8).bufLen.toNat := by
  decide +kernel

/-- An empty message at the end of the buffer, and one that fills it; an aligned and an unaligned width. -/
theorem witness_RunWritesTheKernelValueToResult :
    let ok := fun s : State => s.status.engine = true ∧ s.bufCtrl.getLsbD 0 = true ∧
      s.bufAddr.toNat + s.bufLen.toNat ≤ s.bufBytes
    ok { withM crc8 with bufAddr := 4096, bufLen := 0 } ∧ ok { withM usb5 with bufAddr := 0, bufLen := 4096 } ∧
      (engineOf crc8).width % 8 = 0 ∧ (engineOf usb5).width % 8 ≠ 0 := by decide +kernel

/-- Each error of RUN with the ones before it passed; the range one byte too far. -/
theorem witness_RunReportsTheFirstFailingCheck :
    Instr.runTblFast ∈ [Instr.runAuto, .runTblAug, .runTblFast, .runBitAug, .runBitFast] ∧
    (State.reset.status.engine && State.reset.bufCtrl.getLsbD 0) = false ∧ (crc8.status.engine && crc8.bufCtrl.getLsbD 0) = false ∧
    ((withM usb5).status.engine = true ∧ (withM usb5).bufCtrl.getLsbD 0 = true ∧ (engineOf (withM usb5)).width % 8 ≠ 0) ∧
    (let s := { withM crc8 with bufAddr := 4096, bufLen := 1 }
     s.status.engine = true ∧ s.bufCtrl.getLsbD 0 = true ∧ (engineOf s).width % 8 = 0 ∧
       s.bufBytes < s.bufAddr.toNat + s.bufLen.toNat) := by decide +kernel

theorem witness_RepeatedRunGivesTheSameResult :
    let s := withM crc8
    let s' := { withM crc8 with result := 0x55, bufBytes := 65536 }
    exec .runBitFast s = .next (after (exec .runBitFast s)) ∧ exec .runBitFast s' = .next (after (exec .runBitFast s')) ∧
    engineOf s' = engineOf s ∧ message s' = message s ∧
    (after (exec .runBitFast s)).status.err = false ∧ (after (exec .runBitFast s')).status.err = false := by
  have h : ∀ s, exec .runBitFast s = .next (after (exec .runBitFast s)) := by
    intro s
    obtain ⟨t, ht⟩ := exec_answers_next .runBitFast s
    rw [ht]; rfl
  exact ⟨h _, h _, rfl, rfl, by decide +kernel, by decide +kernel⟩

/-- DEBUG: no descriptor; one byte too far; kernels that agree; kernels that disagree. -/
theorem witness_DebugComparesEveryApplicableKernel :
    (crc8.status.engine && crc8.bufCtrl.getLsbD 0) = false ∧
    (let s := { withM crc8 with bufAddr := 4088 }
     s.status.engine = true ∧ s.bufCtrl.getLsbD 0 = true ∧ s.bufBytes < s.bufAddr.toNat + s.bufLen.toNat) ∧
    (let s := withM crc8; let E := engineOf s; let msg := message s
     s.status.engine = true ∧ s.bufCtrl.getLsbD 0 = true ∧ s.bufAddr.toNat + s.bufLen.toNat ≤ s.bufBytes ∧
       bitAug E msg = bitFast E msg ∧ tblAug E msg = bitAug E msg ∧ tblFast E msg = bitFast E msg) ∧
    (let s := withM even8; let E := engineOf s; let msg := message s
     s.status.engine = true ∧ s.bufCtrl.getLsbD 0 = true ∧ s.bufAddr.toNat + s.bufLen.toNat ≤ s.bufBytes ∧
       ¬ (bitAug E msg = bitFast E msg)) := by decide +kernel

theorem witness_SelftestComparesTheReferenceVector :
    State.reset.status.engine = false ∧ (crc8.status.engine = true ∧ (engineOf crc8).width % 8 = 0) ∧
    (usb5.status.engine = true ∧ (engineOf usb5).width % 8 ≠ 0) := by decide +kernel

theorem witness_CommandsChangeOnlyWhatTheirRulesName :
    exec .runBitFast State.reset = .next (raiseError opRun (.nullInput true true) State.reset) := by rfl

/-- A REFLECT that completes changes RESULT. -/
theorem witness_ResultIsWrittenOnlyByTheCommandsThatProduceOne :
    let s := pend 0x4007 { State.reset with reflIn := 1 }
    step s = .next (after (step s)) ∧ (after (step s)).result ≠ s.result := ⟨rfl, by decide +kernel⟩

/-- A DEBUG that passes its checks changes the DBG registers. -/
theorem witness_DebugRegistersAreWrittenOnlyByDebug :
    let s := pend 0x5 (withM crc8)
    step s = .next (after (step s)) ∧ (after (step s)).dbg ≠ s.dbg := by
  refine ⟨?_, by decide +kernel⟩
  have h : ∀ s : State, s.turns = [] → s.status.busy = true → decode s.pending = .ok .debug →
      step s = .next (after (step s)) := by
    intro s ht hb hd
    obtain ⟨t, h⟩ := exec_answers_next .debug s
    have : step s = exec .debug s := by simp [step, takeTurn, ht, hb, completePending, hd]
    rw [this, h]; rfl
  exact h _ (by decide +kernel) (by decide +kernel) (by decide +kernel)

/-- The widths 1 and 64, with the top bit clear and set. -/
theorem witness_DivisionStepsShiftAndSubtractThePolynomial :
    (1 ≤ 1 ∧ 1 ≤ 64 ∧ 1 < 2 ^ 1 ∧ 0 < 2 ^ 1) ∧ (1 ≤ 64 ∧ 64 ≤ 64 ∧ 2 ^ 64 - 1 < 2 ^ 64 ∧ 2 ^ 63 < 2 ^ 64) := by decide

theorem witness_UnfoldInvertsFoldForOddPolynomials :
    (1 ≤ 1 ∧ 1 ≤ 64 ∧ 1 < 2 ^ 1 ∧ 1 % 2 = 1 ∧ 1 < 2 ^ 1) ∧
    (1 ≤ 64 ∧ 64 ≤ 64 ∧ 0x1B < 2 ^ 64 ∧ 0x1B % 2 = 1 ∧ 2 ^ 64 - 1 < 2 ^ 64) := by decide

theorem witness_EvenPolynomialsHaveSeedsWithNoNonDirectForm :
    (1 ≤ 1 ∧ 1 ≤ 64 ∧ 0 < 2 ^ 1 ∧ 0 % 2 = 0) ∧ (1 ≤ 64 ∧ 64 ≤ 64 ∧ 2 ^ 63 < 2 ^ 64 ∧ 2 ^ 63 % 2 = 0) := by decide

theorem witness_TableEntriesAreLinearInTheByte :
    (8 ≤ 8 ∧ 8 ≤ 64 ∧ 0x07 < 2 ^ 8 ∧ 255 < 256) ∧ (8 ≤ 64 ∧ 64 ≤ 64 ∧ 0x1B < 2 ^ 64 ∧ 0 < 256) := by decide

theorem witness_TableKernelsAgreeWithBitKernels :
    (EngineSound (engineOf crc8) ∧ (engineOf crc8).width % 8 = 0 ∧ EngineTableRight (engineOf crc8)) ∧
    (EngineSound engine64 ∧ engine64.width % 8 = 0 ∧ EngineTableRight engine64) :=
  ⟨⟨sound_crc8, by decide +kernel, tableRight_crc8⟩,
   ⟨sound_engine64, by decide, engineTableRight_of_tableOf (by decide) (by decide) rfl⟩⟩

/-- A sound Engine whose families agree, and one whose families do not. -/
theorem witness_AugmentedResultIsTheFastResultFromTheFoldedSeed :
    (EngineSound engine64 ∧ fold engine64.width engine64.poly engine64.initNodirect = engine64.initDirect) ∧
    (EngineSound (engineOf even8) ∧
      fold (engineOf even8).width (engineOf even8).poly (engineOf even8).initNodirect ≠ (engineOf even8).initDirect) :=
  ⟨⟨sound_engine64, by decide +kernel⟩, ⟨by constructor <;> decide +kernel, by decide +kernel⟩⟩

/-- An odd polynomial; and the example of R163, where the seeds are not equivalent and DEBUG ends in KernelDisagree. -/
theorem witness_DebugAgreesWhenTheSeedsAreEquivalent :
    Inv (withM crc8) ∧ (withM crc8).status.engine = true ∧ (withM crc8).bufCtrl.getLsbD 0 = true ∧
    (withM crc8).bufAddr.toNat + (withM crc8).bufLen.toNat ≤ (withM crc8).bufBytes ∧
    (engineOf (withM crc8)).poly % 2 = 1 ∧ (engineOf (withM crc8)).width % 8 = 0 ∧
    fold 8 0x02 (unfold 8 0x02 0x80) = 0x00 ∧ (after (exec .debug (withM even8))).status.errcode = 0x09 :=
  ⟨inv_crc8, by decide +kernel, by decide +kernel, by decide +kernel, by decide +kernel, by decide +kernel,
    by decide +kernel, by decide +kernel⟩

theorem witness_EmptyMessageGivesTheSeedDerivedResult :
    EngineSound (engineOf crc8) ∧ (engineOf crc8).width % 8 = 0 ∧ EngineTableRight (engineOf crc8) :=
  ⟨sound_crc8, by decide +kernel, tableRight_crc8⟩

/-- The widths 1 and 64 and their all-ones values; and the Engine of the rule's example. -/
theorem witness_KernelResultsAreExactlyTheValuesOfTheWidth :
    (1 ≤ 1 ∧ 1 ≤ 64 ∧ 1 < 2 ^ 1) ∧ (1 ≤ 64 ∧ 64 ≤ 64 ∧ 2 ^ 64 - 1 < 2 ^ 64) ∧
    (let E := { engine64 with refin := false, refout := false, initDirect := 0 }
     E.width = 64 ∧ E.refin = false ∧ E.refout = false ∧ E.initDirect = 0 ∧ E.xorout = 2 ^ 64 - 1) := by decide

/-- The smallest and the largest byte-aligned width, one order of the suffix each; `xorout` 0 and all-ones. -/
theorem witness_AppendedChecksumGivesTheResidue :
    (let E := engineOf crc8
     EngineSound E ∧ E.width % 8 = 0 ∧ E.refin = E.refout ∧ E.swap = false ∧ E.xorout = 0 ∧ EngineTableRight E ∧
       fold E.width E.poly E.initNodirect = E.initDirect) ∧
    (EngineSound engine64 ∧ engine64.width % 8 = 0 ∧ engine64.refin = engine64.refout ∧ engine64.swap = false) :=
  ⟨⟨sound_crc8, by decide +kernel, by decide +kernel, by decide +kernel, by decide +kernel, tableRight_crc8,
    by decide +kernel⟩,
   ⟨sound_engine64, by decide, rfl, rfl⟩⟩

end Sys2Proof.Tests
end

section
/-! SUPPORT. The state family: what a decoded word is, what a completion, a host turn and a step can do, each said once;
then the statements about reset, the registers, and what every step keeps (10_state.md). -/

namespace Sys2Proof.Machine

/-! ### Decoded words -/

/-- R120, R121: with the reserved bits 0, a command word is made of its three fields. -/
theorem commandWord_fields {c : Word} (h : reservedBitsClear c = true) :
    commandWord (fieldOp c) (fieldKsel c) (fieldRn c) = c := by
  rw [reservedBitsClear, Bool.and_eq_true, beq_iff_eq, Bool.not_eq_true'] at h
  obtain ⟨hhigh, h7⟩ := h
  have high_bit (i : Nat) (hi : 15 ≤ i) (hi' : i < 64) : c.getLsbD i = false := by
    have := congrArg (fun x => x.getLsbD (i - 15)) hhigh
    simpa [show i - 15 < 49 by omega, show 15 + (i - 15) = i by omega] using this
  apply BitVec.eq_of_getLsbD_eq
  intro i hi
  simp only [commandWord, fieldOp, fieldKsel, fieldRn, BitVec.getLsbD_append, BitVec.getLsbD_extractLsb',
    BitVec.getLsbD_zero]
  split
  · simp [*]
  · split
    · simp [*, show 4 + (i - 4) = i by omega]
    · split
      · rw [show i = 7 by omega, h7]
      · split
        · simp [show i - 4 - 3 - 1 < 7 by omega, show 8 + (i - 4 - 3 - 1) = i by omega]
        · rw [high_bit i (by omega) hi]

theorem withoutRn_eq_ok {c : Word} {i j : Instr} (h : withoutRn c i = .ok j) : fieldRn c = 0 ∧ j = i := by
  unfold withoutRn at h
  split at h
  · exact ⟨‹_›, (Except.ok.inj h).symm⟩
  · cases h

theorem plainForm_eq_ok {c : Word} {i j : Instr} (h : plainForm c i = .ok j) :
    fieldKsel c = 0 ∧ fieldRn c = 0 ∧ j = i := by
  unfold plainForm at h
  split at h
  · exact ⟨‹_›, withoutRn_eq_ok h⟩
  · cases h

/-- R123: a legal kernel form is the one its KSEL numbers, with RN 0. -/
theorem kernelForm_eq_ok {c : Word} {auto tblAug tblFast bitAug bitFast j : Instr}
    (h : kernelForm c auto tblAug tblFast bitAug bitFast = .ok j) :
    fieldRn c = 0 ∧ (fieldKsel c, j) ∈ [(0, auto), (1, tblAug), (2, tblFast), (3, bitAug), (4, bitFast)] := by
  have form {n : Nat} {i : Instr} (hn : (fieldKsel c).toNat = n) (h : withoutRn c i = .ok j) :
      fieldRn c = 0 ∧ fieldKsel c = BitVec.ofNat 3 n ∧ j = i := by
    subst hn
    exact ⟨(withoutRn_eq_ok h).1, by simp, (withoutRn_eq_ok h).2⟩
  unfold kernelForm at h
  split at h
  case h_6 => cases h
  all_goals
    obtain ⟨hrn, hksel, rfl⟩ := form ‹_› h
    simp [hrn, hksel]

/-- R125, R127: a word that decodes is the encoding of its command. -/
theorem encode_of_decode {c : Word} {i : Instr} (h : decode c = .ok i) : encode i = c := by
  unfold decode at h
  split at h
  case isFalse => cases h
  case isTrue hres =>
    have word_eq {op : BitVec 4} (hop : (fieldOp c).toNat = op.toNat) :
        commandWord op (fieldKsel c) (fieldRn c) = c := by
      rw [← BitVec.eq_of_toNat_eq hop, commandWord_fields hres]
    have plain {op : BitVec 4} {j : Instr} (hop : (fieldOp c).toNat = op.toNat) (h : plainForm c j = .ok i)
        (hj : encode j = commandWord op 0 0) : encode i = c := by
      obtain ⟨hksel, hrn, rfl⟩ := plainForm_eq_ok h
      rw [hj, ← word_eq hop, hksel, hrn]
    have kernel {op : BitVec 4} {k₀ k₁ k₂ k₃ k₄ : Instr} (hop : (fieldOp c).toNat = op.toNat)
        (h : kernelForm c k₀ k₁ k₂ k₃ k₄ = .ok i)
        (hforms : ∀ p ∈ [(0, k₀), (1, k₁), (2, k₂), (3, k₃), (4, k₄)], encode p.2 = commandWord op p.1 0) :
        encode i = c := by
      obtain ⟨hrn, hmem⟩ := kernelForm_eq_ok h
      rw [← word_eq hop, hrn]
      exact hforms (fieldKsel c, i) hmem
    split at h
    case h_1 hop => exact plain (op := opCreate) hop h rfl
    case h_2 hop => exact plain (op := opDestroy) hop h rfl
    case h_3 hop => exact plain (op := opBuildTable) hop h rfl
    case h_4 hop => exact kernel (op := opRun) hop h (by decide)
    case h_5 hop => exact plain (op := opDebug) hop h rfl
    case h_6 hop => exact kernel (op := opSelftest) hop h (by decide)
    case h_7 hop =>
      split at h
      case isFalse => cases h
      case isTrue hksel =>
        obtain rfl := Except.ok.inj h
        calc encode (.reflect (fieldRn c).toNat) = commandWord opReflect 0 (fieldRn c) := by
              simp [encode, Instr.op, Instr.ksel, Instr.rn]
          _ = c := hksel ▸ word_eq (op := opReflect) hop
    case h_8 => cases h

/-- R121, R122: the OP field of a word that decodes is its command's OP value. -/
theorem fieldOp_of_decode {c : Word} {i : Instr} (h : decode c = .ok i) : c.extractLsb' 0 4 = i.op := by
  rw [← encode_of_decode h]
  exact BitVec.extractLsb'_append_eq_right

/-! ### What a completion can do -/

/-- R300, R306: the errors a command raises, each with information its check found: a violation for ParameterInvalid, an
absent reference for NullInput; AllocationFailure is never raised (R234). -/
def CmdError.Produced : CmdError → Prop
  | .parameterInvalid v => v.none = false
  | .nullInput noEngine noBuffer => (noEngine || noBuffer) = true
  | .allocationFailure => False
  | .checkMismatch | .illegalCommand | .engineExists | .widthNotAligned | .bufferRange | .kernelDisagree
  | .invalidOperand => True

/-- The ways a command can end, with the checks it passed. Tied to the model by `completion_of_exec`. -/
inductive Completion (s : State) : Instr → State → Prop
  /-- A check failed, and nothing but STATUS was written. -/
  | raised {i : Instr} {op : BitVec 4} {e : CmdError} (he : e.Produced) : Completion s i (raiseError op e s)
  /-- CREATE from EMPTY, with a valid staged record (R231). -/
  | created (hengine : s.status.engine = false) (hvalid : (stagedViolations s).none = true) :
      Completion s .create (complete opCreate (holdEngine (buildTable (loadEngine s))))
  /-- DESTROY from READY (R236). -/
  | released (hengine : s.status.engine = true) : Completion s .destroy (complete opDestroy (releaseEngine s))
  /-- DESTROY from EMPTY (R236). -/
  | nothingHeld (hengine : s.status.engine = false) : Completion s .destroy (complete opDestroy s)
  /-- BUILD_TABLE where the table stands (R240). -/
  | tableExists (hengine : s.status.engine = true) (hbuilt : s.status.tableBuilt = true) :
      Completion s .buildTable (completeWarning opBuildTable s)
  /-- BUILD_TABLE where an Engine has no table (R240). -/
  | rebuilt (hengine : s.status.engine = true) (hbuilt : s.status.tableBuilt = false) :
      Completion s .buildTable (complete opBuildTable (buildTable s))
  /-- RUN or REFLECT with a value (R202, R180). -/
  | produced {i : Instr} {op : BitVec 4} {v : Nat} (hop : i.op = op) (hmem : op ∈ [opRun, opReflect]) :
      Completion s i (completeWith op v s)
  /-- DEBUG with equal results (R261). -/
  | agreed {tbl : Bool} {g : DbgRegs} {v : Word} (hengine : s.status.engine = true) (hvalid : bufValid s = true)
      (hrange : bufferOutOfRange s = false) :
      Completion s .debug (finishDebug true tbl none { s with dbg := g, result := v })
  /-- DEBUG with KernelDisagree (R261). -/
  | disagreed {tbl : Bool} {g : DbgRegs} (hengine : s.status.engine = true) (hvalid : bufValid s = true)
      (hrange : bufferOutOfRange s = false) :
      Completion s .debug (finishDebug false tbl (some .kernelDisagree) { s with dbg := g })
  /-- SELFTEST that matches (R266). -/
  | matched {i : Instr} {v : Word} (hop : i.op = opSelftest) : Completion s i (complete opSelftest { s with result := v })
  /-- SELFTEST with CheckMismatch, which writes RESULT all the same (R266). -/
  | mismatched {i : Instr} {v : Word} (hop : i.op = opSelftest) :
      Completion s i (raiseError opSelftest .checkMismatch { s with result := v })

section
variable {i : Instr} {k : KernelSel} {s t : State}

theorem nullInput_produced (h : ¬ (s.status.engine = true ∧ bufValid s = true)) :
    (CmdError.nullInput (!s.status.engine) (!bufValid s)).Produced := by
  simpa only [CmdError.Produced, ← Bool.not_and, ← Bool.and_eq_true, Bool.not_eq_true, Bool.not_eq_true'] using h

theorem completion_of_runCommon (hop : i.op = opRun) (h : runCommon k s = .next t) : Completion s i t := by
  rcases runCommon_cases k s with ⟨hnull, e⟩ | ⟨-, -, -, e⟩ | ⟨-, -, -, -, e⟩ | ⟨-, -, -, -, e⟩ <;>
    cases e.symm.trans h
  · exact .raised (nullInput_produced hnull)
  · exact .raised trivial
  · exact .raised trivial
  · exact .produced hop (by simp)

theorem completion_of_selftestCommon (hop : i.op = opSelftest) (h : selftestCommon k s = .next t) :
    Completion s i t := by
  rcases selftestCommon_cases k s with ⟨-, e⟩ | ⟨-, -, e⟩ | ⟨-, -, -, e⟩ | ⟨-, -, -, e⟩ <;> cases e.symm.trans h
  · exact .raised rfl
  · exact .raised trivial
  · exact .matched hop
  · exact .mismatched hop

theorem completion_of_execCreate (h : execCreate s = .next t) : Completion s .create t := by
  rcases execCreate_cases s with ⟨-, e⟩ | ⟨hengine, hvalid, e⟩ | ⟨-, hinvalid, e⟩ <;> cases e.symm.trans h
  · exact .raised trivial
  · exact .created hengine hvalid
  · exact .raised hinvalid

theorem completion_of_execDestroy (h : execDestroy s = .next t) : Completion s .destroy t := by
  rcases execDestroy_cases s with ⟨hengine, e⟩ | ⟨hengine, e⟩ <;> cases e.symm.trans h
  · exact .released hengine
  · exact .nothingHeld hengine

theorem completion_of_execBuildTable (h : execBuildTable s = .next t) : Completion s .buildTable t := by
  rcases execBuildTable_cases s with ⟨-, e⟩ | ⟨hengine, hbuilt, e⟩ | ⟨hengine, hbuilt, e⟩ <;> cases e.symm.trans h
  · exact .raised rfl
  · exact .tableExists hengine hbuilt
  · exact .rebuilt hengine hbuilt

theorem completion_of_execDebug (h : execDebug s = .next t) : Completion s .debug t := by
  rcases execDebug_cases s with
    ⟨hnull, e⟩ | ⟨-, -, -, e⟩ | ⟨hengine, hvalid, hrange, -, e⟩ | ⟨hengine, hvalid, hrange, -, e⟩ <;>
    cases e.symm.trans h
  · exact .raised (nullInput_produced hnull)
  · exact .raised trivial
  · exact .agreed hengine hvalid hrange
  · exact .disagreed hengine hvalid hrange

theorem completion_of_execReflect {n : Nat} (h : execReflect n s = .next t) : Completion s (.reflect n) t := by
  rcases execReflect_cases n s with ⟨-, -, e⟩ | ⟨-, e⟩ <;> cases e.symm.trans h
  · exact .produced rfl (by simp)
  · exact .raised trivial

/-- R343: every command ends in one of the ways of `Completion`. -/
theorem completion_of_exec (h : exec i s = .next t) : Completion s i t := by
  cases i with
  | create => exact completion_of_execCreate h
  | destroy => exact completion_of_execDestroy h
  | buildTable => exact completion_of_execBuildTable h
  | debug => exact completion_of_execDebug h
  | reflect n => exact completion_of_execReflect h
  | runAuto => exact completion_of_runCommon (k := .auto) rfl h
  | runTblAug => exact completion_of_runCommon (k := .tblAug) rfl h
  | runTblFast => exact completion_of_runCommon (k := .tblFast) rfl h
  | runBitAug => exact completion_of_runCommon (k := .bitAug) rfl h
  | runBitFast => exact completion_of_runCommon (k := .bitFast) rfl h
  | selftestAuto => exact completion_of_selftestCommon (k := .auto) rfl h
  | selftestTblAug => exact completion_of_selftestCommon (k := .tblAug) rfl h
  | selftestTblFast => exact completion_of_selftestCommon (k := .tblFast) rfl h
  | selftestBitAug => exact completion_of_selftestCommon (k := .bitAug) rfl h
  | selftestBitFast => exact completion_of_selftestCommon (k := .bitFast) rfl h

/-! ### What a host turn can do -/

/-- A property that every host write and the host's own bookkeeping keep is kept by a host turn (R80, R128). A register
write reaches a register that is not read-only, a buffer write lies inside the buffer (R83, R86). -/
theorem hostTurn_keeps {P : State → Prop} (h : P s)
    (hreg : ∀ r v, r.access ≠ .ro → P (writeReg s r v))
    (hbuf : ∀ a n v, a + n ≤ s.bufBytes → P (memWrite s a n v))
    (hrecord : ∀ r u, P u → P (record r u)) (hprogram : ∀ p u, P u → P (setProgram p u)) : P (hostTurn s) := by
  have hwrite : ∀ off size v, P (hostWrite s off size v).1 := by
    intro off size v
    rcases hostWrite_cases s off size v with e | ⟨r, -, -, hacc, e⟩ | ⟨a, -, htarget, e⟩ <;> rw [e]
    · exact h
    · exact hreg r v hacc
    · exact hbuf a _ _ (target?_buffer htarget).2.2.2
  have htxn : ∀ x, P (hostTransaction x s) := by
    intro x
    cases x with
    | read off size => exact hrecord _ _ h
    | write off size v => exact hrecord _ _ (hwrite off size v)
  unfold hostTurn
  split
  · exact h
  · exact hprogram _ _ (htxn _)
  · split
    · exact htxn _
    · exact hprogram _ _ (htxn _)

/-! ### What a step can do -/

/-- One step (R95): whose turn it was and what it did; `ts` are the turns left. Tied to the model by
`transition_of_step`. -/
inductive Transition (s : State) : State → Prop
  | host (ts : List Turn) : Transition s (hostTurn (setTurns ts s))
  /-- A turn of the ENGINE agent with nothing pending. -/
  | idle (ts : List Turn) : Transition s (setTurns ts s)
  | reset {ts : List Turn} (hturn : s.turns = .reset :: ts) : Transition s (resetInput (setTurns ts s))
  | illegal (ts : List Turn) {e : Illegal} (hbusy : s.status.busy = true) (hdecode : decode s.pending = .error e) :
      Transition s (illegalCommand (setTurns ts s))
  | completed (ts : List Turn) {i : Instr} {t : State} (hbusy : s.status.busy = true) (hdecode : decode s.pending = .ok i)
      (hend : Completion (setTurns ts s) i t) : Transition s t

/-- R343: a completion step as a transition. -/
theorem transition_of_completePending {ts : List Turn} (hbusy : s.status.busy = true)
    (h : completePending (setTurns ts s) = .next t) : Transition s t := by
  rcases completePending_cases (setTurns ts s) with ⟨i, hdecode, e⟩ | ⟨_, hdecode, e⟩
  · exact .completed ts hbusy hdecode (completion_of_exec (e.symm.trans h))
  · cases e.symm.trans h
    exact .illegal ts hbusy hdecode

/-- R95: every step is one of the transitions. -/
theorem transition_of_step (h : step s = .next t) : Transition s t := by
  have no_turns (hnil : s.turns = []) : s = setTurns [] s := by rw [setTurns, ← hnil]
  rcases step_cases s with
    ⟨ts, -, e⟩ | ⟨ts, -, e⟩ | ⟨ts, hturn, e⟩ | ⟨hnil, hbusy, e⟩ | ⟨hnil, -, e⟩ <;> rw [e] at h
  · cases h
    exact .host ts
  · unfold engineTurn at h
    split at h
    · exact transition_of_completePending ‹_› h
    · cases h
      exact .idle ts
  · cases h
    exact .reset hturn
  · exact transition_of_completePending hbusy (no_turns hnil ▸ h)
  · cases h
    exact no_turns hnil ▸ .host []

end

end Sys2Proof.Machine
end

section
/-! SUPPORT. The state family: what the host's turns and the completions leave unchanged, and the parts of the machine
invariant; then the statements that follow. -/

namespace Sys2Proof.Machine

/-! ### What a host turn leaves unchanged -/

/-- `t` has the Engine, the table, the results and the STATUS of `s`, BUSY apart: what no host turn changes (R37, R86). -/
structure HostKeeps (s t : State) : Prop where
  eng : t.eng = s.eng
  table : t.table = s.table
  result : t.result = s.result
  dbg : t.dbg = s.dbg
  status : t.status = { s.status with busy := t.status.busy }

theorem hostKeeps_writeReg (s : State) (r : Reg) (v : Word) : HostKeeps s (writeReg s r v) := by
  cases r <;> exact ⟨rfl, rfl, rfl, rfl, rfl⟩

theorem hostKeeps_memWrite (s : State) (a n v : Nat) : HostKeeps s (memWrite s a n v) := by
  rw [memWrite_frame]
  exact ⟨rfl, rfl, rfl, rfl, rfl⟩

theorem hostKeeps_hostTurn (s : State) : HostKeeps s (hostTurn s) :=
  hostTurn_keeps (P := HostKeeps s) ⟨rfl, rfl, rfl, rfl, rfl⟩
    (fun r v _ => hostKeeps_writeReg s r v) (fun a n v _ => hostKeeps_memWrite s a n v)
    (fun _ _ h => ⟨h.eng, h.table, h.result, h.dbg, h.status⟩)
    (fun _ _ h => ⟨h.eng, h.table, h.result, h.dbg, h.status⟩)

/-- Only the reset input and a command's completion change RESULT or a DBG register (R44, R45). -/
theorem Transition.changes_results {s t : State} (h : Transition s t) (hne : t.result ≠ s.result ∨ t.dbg ≠ s.dbg) :
    (∃ ts, s.turns = .reset :: ts) ∨
    ∃ ts i, s.status.busy = true ∧ decode s.pending = .ok i ∧ Completion (setTurns ts s) i t := by
  cases h with
  | host ts =>
    have hk := hostKeeps_hostTurn (setTurns ts s)
    exact (hne.elim (absurd hk.result) (absurd hk.dbg))
  | idle ts => simp at hne
  | reset hturn => exact .inl ⟨_, hturn⟩
  | illegal ts => simp [illegalCommand] at hne
  | completed ts hbusy hdecode hend => exact .inr ⟨ts, _, hbusy, hdecode, hend⟩

/-! ### The parts of the machine invariant -/

/-- What of the invariant the host's writes bear on: the size and form of the buffer, and the reserved bits of P_CFG
and BUF_CTRL (R9, R34, R47, R51). -/
structure HostSideInv (bufBytes : Nat) (m : Memory) (pCfg bufCtrl : Word) : Prop where
  bufBytes_pos : 1 ≤ bufBytes
  bufBytes_le : bufBytes ≤ Config.maxBufBytes
  memory_wf : m.wf = true
  memory_inside : m.inside bufBytes = true
  staged_reserved : pCfg &&& cfgWritable = pCfg
  bufCtrl_reserved : bufCtrl &&& bufCtrlWritable = bufCtrl

/-- `HostSideInv` of a state. -/
def State.HostSide (s : State) : Prop := HostSideInv s.bufBytes s.msgbuf s.staged.cfg s.bufCtrl

/-- What of the invariant the commands CREATE and DESTROY bear on: the Engine invariant of R39. -/
structure EngineInv (s : State) : Prop where
  reserved : s.eng.params.cfg &&& cfgWritable = s.eng.params.cfg
  held : s.status.engine = true → EngineHeld s
  absent : s.status.engine = false → EngineAbsent s

theorem inv_iff {s : State} : Inv s ↔ s.HostSide ∧ EngineInv s ∧ LastCommand s.status :=
  ⟨fun h => ⟨⟨h.bufBytes_pos, h.bufBytes_le, h.memory_wf, h.memory_inside, h.staged_reserved, h.bufCtrl_reserved⟩,
      ⟨h.eng_reserved, h.held, h.absent⟩, h.last⟩,
    fun ⟨hh, he, hl⟩ => ⟨hh.bufBytes_pos, hh.bufBytes_le, hh.memory_wf, hh.memory_inside, hh.staged_reserved,
      he.reserved, hh.bufCtrl_reserved, he.held, he.absent, hl⟩⟩

/-! ### The host's side -/

theorem hostSide_writeReg {s : State} (h : s.HostSide) (r : Reg) (v : Word) : (writeReg s r v).HostSide := by
  have masked (m : Word) : v &&& m &&& m = v &&& m := by rw [BitVec.and_assoc, BitVec.and_self]
  cases r
  case pCfg => exact { h with staged_reserved := masked cfgWritable }
  case bufCtrl => exact { h with bufCtrl_reserved := masked bufCtrlWritable }
  all_goals exact h

theorem hostSide_memWrite {s : State} (h : s.HostSide) {a n : Nat} (v : Nat) (hn : a + n ≤ s.bufBytes) :
    (memWrite s a n v).HostSide := by
  rw [memWrite_frame]
  exact { h with
    memory_wf := memWrite_wf s a n v h.memory_wf
    memory_inside := memWrite_inside s a n v hn h.memory_inside }

theorem hostSide_hostTurn {s : State} (h : s.HostSide) : (hostTurn s).HostSide :=
  hostTurn_keeps (P := State.HostSide) h (fun r v _ => hostSide_writeReg h r v)
    (fun _ _ v hn => hostSide_memWrite h v hn) (fun _ _ h => h) (fun _ _ h => h)

/-- No command writes what the host writes. -/
theorem Completion.hostSide {s t : State} {i : Instr} (h : Completion s i t) (hs : s.HostSide) : t.HostSide := by
  cases h <;> exact hs

/-! ### The Engine -/

/-- `t` has the Engine registers, the table, ENGINE and TABLE_BUILT of `s`. -/
structure SameEngine (s t : State) : Prop where
  eng : t.eng = s.eng
  table : t.table = s.table
  engine : t.status.engine = s.status.engine
  built : t.status.tableBuilt = s.status.tableBuilt

theorem HostKeeps.sameEngine {s t : State} (h : HostKeeps s t) : SameEngine s t :=
  ⟨h.eng, h.table, by rw [h.status], by rw [h.status]⟩

theorem EngineInv.of_sameEngine {s t : State} (h : EngineInv s) (hst : SameEngine s t) : EngineInv t := by
  obtain ⟨heng, htable, hengine, hbuilt⟩ := hst
  refine ⟨heng ▸ h.reserved, fun ht => ?_, fun ht => ?_⟩
  · obtain ⟨h1, h2, h3, h4, h5, h6, h7, h8, h9, h10, h11⟩ := h.held (hengine ▸ ht)
    constructor <;> simp only [heng, htable, hbuilt] <;> assumption
  · obtain ⟨h1, h2, h3⟩ := h.absent (hengine ▸ ht)
    exact ⟨heng.trans h1, htable.trans h2, hbuilt.trans h3⟩

/-- R151: a record with no violation. -/
theorem validate_none {w poly init xorout : Nat} (h : (validate w poly init xorout).none = true) :
    1 ≤ w ∧ w ≤ 64 ∧ poly &&& mask w = poly ∧ init &&& mask w = init ∧ xorout &&& mask w = xorout := by
  have fits {a b : Nat} : a = (a &&& b) ↔ a &&& b = a := eq_comm
  simpa [validate, Violations.none, fits, and_assoc] using h

/-- R231, R39: what CREATE makes of a valid record is a held Engine. -/
theorem engineHeld_of_created {s : State} (h : (stagedViolations s).none = true) :
    EngineHeld (complete opCreate (holdEngine (buildTable (loadEngine s)))) := by
  obtain ⟨hpos, hle, hpoly, hinit, hxorout⟩ := validate_none h
  exact {
    width_pos := hpos
    width_le := hle
    poly_fits := hpoly
    init_fits := hinit
    xorout_fits := hxorout
    crcmask := rfl
    highbit := rfl
    initDirect := by simp [loadEngine, seedDirect]
    initNodirect := rfl
    table := tableOf_getElem _ _ _
    built := rfl }

/-- How a command leaves the Engine: as it was, made by CREATE, released by DESTROY, or, where an Engine was held
without its table, with the table rebuilt (R37, R230, R240). -/
theorem Completion.engine_cases {s t : State} {i : Instr} (h : Completion s i t) :
    SameEngine s t ∨
    (i = .create ∧ s.status.engine = false ∧ (stagedViolations s).none = true ∧
      t = complete opCreate (holdEngine (buildTable (loadEngine s)))) ∨
    (i = .destroy ∧ s.status.engine = true ∧ t = complete opDestroy (releaseEngine s)) ∨
    (s.status.engine = true ∧ s.status.tableBuilt = false) := by
  cases h with
  | created hengine hvalid => exact .inr (.inl ⟨rfl, hengine, hvalid, rfl⟩)
  | released hengine => exact .inr (.inr (.inl ⟨rfl, hengine, rfl⟩))
  | rebuilt hengine hbuilt => exact .inr (.inr (.inr ⟨hengine, hbuilt⟩))
  | raised | nothingHeld | tableExists | produced | agreed | disagreed | matched | mismatched =>
    exact .inl ⟨rfl, rfl, rfl, rfl⟩

/-- R39: a held Engine has its table. -/
theorem EngineInv.built {s : State} (h : EngineInv s) (hengine : s.status.engine = true) : s.status.tableBuilt = true :=
  (h.held hengine).built

theorem Completion.engineInv {s t : State} {i : Instr} (h : Completion s i t) (hs : s.HostSide) (he : EngineInv s) :
    EngineInv t := by
  rcases h.engine_cases with hsame | ⟨-, -, hvalid, rfl⟩ | ⟨-, -, rfl⟩ | ⟨hengine, hbuilt⟩
  · exact he.of_sameEngine hsame
  · exact ⟨hs.staged_reserved, fun _ => engineHeld_of_created hvalid, nofun⟩
  · exact ⟨BitVec.zero_and, nofun, fun _ => ⟨rfl, rfl, rfl⟩⟩
  · exact absurd ((he.built hengine).symm.trans hbuilt) nofun

/-! ### The last-command fields -/

theorem LastCommand.setBusy {t : Status} (h : LastCommand t) (b : Bool) : LastCommand { t with busy := b } :=
  ⟨h.err_iff, h.code, h.violations, h.absent, h.warn, h.agree, h.dbgTbl⟩

theorem HostKeeps.lastCommand {s t : State} (h : HostKeeps s t) (hs : LastCommand s.status) : LastCommand t.status :=
  h.status ▸ hs.setBusy _

/-! R300, R306: what STATUS says of an error. -/

theorem CmdError.code_ne_zero (e : CmdError) : e.code ≠ 0 := by cases e <;> exact of_decide_eq_true rfl

section
variable {e : CmdError} (he : e.Produced)
include he

theorem CmdError.Produced.code_mem : e.code ∈ [0x00, 0x01, 0x02, 0x04, 0x05, 0x06, 0x07, 0x08, 0x09, 0x0A] := by
  cases e
  case allocationFailure => exact he.elim
  all_goals simp [CmdError.code]

theorem CmdError.Produced.violations_iff :
    (e.violations.invalidWidth || e.violations.invalidPoly || e.violations.invalidInit || e.violations.invalidXorout)
      = true ↔ e.code = 0x01 := by
  cases e
  case parameterInvalid v =>
    simp only [CmdError.Produced, Violations.none, Bool.not_eq_false'] at he
    exact iff_of_true he rfl
  all_goals simp [CmdError.code, CmdError.violations]

theorem CmdError.Produced.absent_iff : (e.noEngine || e.noBuffer) = true ↔ e.code = 0x02 := by
  cases e
  case nullInput a b => exact iff_of_true he rfl
  all_goals simp [CmdError.code, CmdError.noEngine, CmdError.noBuffer]

end

/-- R306: the status write leaves the last-command fields as R42 has them, when the command reports what its rule
allows: no error or a produced one, WARN as BUILD_TABLE's success, AGREE as DEBUG's success, DBG_TBL as DEBUG's. -/
theorem lastCommand_finishStatus {op : BitVec 4} {warn agree dbgTbl : Bool} {err : Option CmdError} (t : Status)
    (herr : ∀ e ∈ err, e.Produced) (hwarn : warn = true → err = none ∧ op = opBuildTable)
    (hagree : agree = true → err = none ∧ op = opDebug)
    (hdbgTbl : dbgTbl = true → (err = none ∨ err = some .kernelDisagree) ∧ op = opDebug) :
    LastCommand (finishStatus op warn agree dbgTbl err t) where
  warn h := by
    obtain ⟨rfl, rfl⟩ := hwarn h
    exact ⟨rfl, rfl⟩
  agree h := by
    obtain ⟨rfl, rfl⟩ := hagree h
    exact ⟨rfl, rfl⟩
  dbgTbl h := by
    obtain ⟨rfl | rfl, rfl⟩ := hdbgTbl h
    · exact ⟨.inl rfl, rfl⟩
    · exact ⟨.inr rfl, rfl⟩
  err_iff := by
    cases err with
    | none => simp
    | some e => exact iff_of_true rfl e.code_ne_zero
  code := by
    cases err with
    | none => simp
    | some e => exact (herr e rfl).code_mem
  violations := by
    cases err with
    | none => simp [finishStatus]
    | some e => exact (herr e rfl).violations_iff
  absent := by
    cases err with
    | none => simp [finishStatus]
    | some e => exact (herr e rfl).absent_iff

theorem lastCommand_raiseError {e : CmdError} (he : e.Produced) (op : BitVec 4) (s : State) :
    LastCommand (raiseError op e s).status :=
  lastCommand_finishStatus _ (by simpa using he) nofun nofun nofun

theorem lastCommand_complete (op : BitVec 4) (s : State) : LastCommand (complete op s).status :=
  lastCommand_finishStatus _ nofun nofun nofun nofun

theorem Completion.lastCommand {s t : State} {i : Instr} (h : Completion s i t) : LastCommand t.status := by
  cases h with
  | raised he => exact lastCommand_raiseError he _ _
  | mismatched => exact lastCommand_raiseError (e := .checkMismatch) trivial _ _
  | created | released | nothingHeld | rebuilt | produced | matched => exact lastCommand_complete _ _
  | tableExists => exact lastCommand_finishStatus _ nofun (fun _ => ⟨rfl, rfl⟩) nofun nofun
  | agreed => exact lastCommand_finishStatus _ nofun nofun (fun _ => ⟨rfl, rfl⟩) (fun _ => ⟨.inl rfl, rfl⟩)
  | disagreed => exact lastCommand_finishStatus _ (by simp [CmdError.Produced]) nofun nofun (fun _ => ⟨.inr rfl, rfl⟩)

/-! ### Reset -/

/-- R52, R340: the reset state meets the invariant, whatever the size of the buffer R9 allows, the count of resets, and
the host's own program, turns and answers. -/
theorem inv_reset_with {n : Nat} (hpos : 1 ≤ n) (hle : n ≤ Config.maxBufBytes) (k : Nat) (p : List HostOp)
    (ts : List Turn) (rs : List Response) :
    Inv { State.reset with bufBytes := n, resets := k, program := p, turns := ts, responses := rs } :=
  inv_iff.2 ⟨⟨hpos, hle, rfl, rfl, BitVec.zero_and, BitVec.zero_and⟩,
    ⟨BitVec.zero_and, nofun, fun _ => ⟨rfl, rfl, rfl⟩⟩, lastCommand_complete 0 State.reset⟩

/-- Settles O12: the default size of the buffer is one R9 allows. -/
theorem resetMeetsTheMachineInvariant : Obligations.ResetMeetsTheMachineInvariant :=
  inv_reset_with (n := Config.defaultBufBytes) (by decide) (by decide) 0 [] [] []

/-! ### Every step keeps the invariant -/

theorem inv_hostTurn {s : State} (h : Inv s) : Inv (hostTurn s) := by
  obtain ⟨hhost, hengine, hlast⟩ := inv_iff.1 h
  have hkeeps := hostKeeps_hostTurn s
  exact inv_iff.2 ⟨hostSide_hostTurn hhost, hengine.of_sameEngine hkeeps.sameEngine, hkeeps.lastCommand hlast⟩

theorem inv_setTurns {s : State} (h : Inv s) (ts : List Turn) : Inv (setTurns ts s) := by
  obtain ⟨hhost, hengine, hlast⟩ := inv_iff.1 h
  exact inv_iff.2 ⟨hhost, hengine.of_sameEngine ⟨rfl, rfl, rfl, rfl⟩, hlast⟩

theorem inv_resetInput {s : State} (h : Inv s) : Inv (resetInput s) :=
  inv_reset_with h.bufBytes_pos h.bufBytes_le _ _ _ _

theorem Completion.inv {s t : State} {i : Instr} (h : Completion s i t) (hs : Inv s) : Inv t := by
  obtain ⟨hhost, hengine, -⟩ := inv_iff.1 hs
  exact inv_iff.2 ⟨h.hostSide hhost, h.engineInv hhost hengine, h.lastCommand⟩

/-- The completion of a word that does not decode ends as a command that raised an error does. -/
theorem completion_illegalCommand (s : State) (i : Instr) : Completion s i (illegalCommand s) := .raised trivial

theorem Transition.inv {s t : State} (h : Transition s t) (hs : Inv s) : Inv t := by
  cases h with
  | host ts => exact inv_hostTurn (inv_setTurns hs ts)
  | idle ts => exact inv_setTurns hs ts
  | reset => exact inv_resetInput (inv_setTurns hs _)
  | illegal ts => exact (completion_illegalCommand _ .create).inv (inv_setTurns hs ts)
  | completed ts _ _ hend => exact hend.inv (inv_setTurns hs ts)

/-- Settles O11: the host's side, the Engine and the last-command fields of the invariant are each kept by every
transition. -/
theorem stepKeepsTheMachineInvariant : Obligations.StepKeepsTheMachineInvariant :=
  fun _ _ hs hstep => (transition_of_step hstep).inv hs

/-! ### Who changes the Engine, RESULT and the DBG registers -/

/-- Settles O33: a transition other than those named keeps the Engine registers, the table and ENGINE; a BUILD_TABLE
that would write the table meets no state of the invariant. -/
theorem engineChangesOnlyByCreateDestroyAndReset : Obligations.EngineChangesOnlyByCreateDestroyAndReset := by
  intro s t hs hstep hne
  have not_same (ts : List Turn) : ¬ SameEngine (setTurns ts s) t := by
    intro h
    rcases hne with hne | hne | hne
    · exact hne h.eng
    · exact hne h.table
    · exact hne h.engine
  cases transition_of_step hstep with
  | host ts => exact absurd (hostKeeps_hostTurn _).sameEngine (not_same ts)
  | idle ts => exact absurd ⟨rfl, rfl, rfl, rfl⟩ (not_same ts)
  | reset hturn => exact .inl ⟨_, hturn⟩
  | illegal ts => exact absurd ⟨rfl, rfl, rfl, rfl⟩ (not_same ts)
  | completed ts hbusy hdecode hend =>
    have hword := encode_of_decode hdecode
    have hinv := (inv_iff.1 (inv_setTurns hs ts)).2.1
    rcases hend.engine_cases with hsame | ⟨rfl, hengine, -, rfl⟩ | ⟨rfl, hengine, rfl⟩ | ⟨hengine, hbuilt⟩
    · exact absurd hsame (not_same ts)
    · exact .inr (.inl ⟨hbusy, hword.symm, hengine, rfl, rfl⟩)
    · exact .inr (.inr ⟨hbusy, hword.symm, hengine, rfl, rfl⟩)
    · exact absurd ((hinv.built hengine).symm.trans hbuilt) nofun

/-- Settles O41: of the ways a command ends, only those of RUN, REFLECT, DEBUG and SELFTEST write RESULT. -/
theorem resultIsWrittenOnlyByTheCommandsThatProduceOne :
    Obligations.ResultIsWrittenOnlyByTheCommandsThatProduceOne := by
  intro s t hstep hne
  refine ((transition_of_step hstep).changes_results (.inl hne)).imp_right ?_
  rintro ⟨ts, i, hbusy, hdecode, hend⟩
  rw [fieldOp_of_decode hdecode]
  refine ⟨hbusy, ?_⟩
  cases hend with
  | raised | created | released | nothingHeld | tableExists | rebuilt | disagreed => simp at hne
  | produced hop hmem =>
    rw [hop]
    simp only [List.mem_cons, List.not_mem_nil, or_false] at hmem
    obtain rfl | rfl := hmem
    · exact ⟨by decide, nofun⟩
    · exact ⟨by decide, nofun⟩
  | agreed => exact ⟨by decide, nofun⟩
  | matched hop => exact ⟨by rw [hop]; decide, nofun⟩
  | mismatched hop => exact ⟨by rw [hop]; decide, fun _ => ⟨hop, rfl⟩⟩

/-- Settles O42: of the ways a command ends, only those of a DEBUG that passed its checks write the DBG registers. -/
theorem debugRegistersAreWrittenOnlyByDebug : Obligations.DebugRegistersAreWrittenOnlyByDebug := by
  intro s t hstep hne
  refine ((transition_of_step hstep).changes_results (.inr hne)).imp_right ?_
  rintro ⟨ts, i, hbusy, hdecode, hend⟩
  have hword := encode_of_decode hdecode
  have in_range (h : bufferOutOfRange (setTurns ts s) = false) : s.bufAddr.toNat + s.bufLen.toNat ≤ s.bufBytes := by
    simpa [bufferOutOfRange] using h
  cases hend with
  | raised | created | released | nothingHeld | tableExists | rebuilt | produced | matched | mismatched => simp at hne
  | agreed hengine hvalid hrange | disagreed hengine hvalid hrange =>
    exact ⟨hbusy, hword.symm, hengine, hvalid, in_range hrange⟩

end Sys2Proof.Machine
end

section
/-! SUPPORT. The state family: the values a host reads after reset and from STATUS, the CMD write and the message; then
that the label, the payload and SWAP reach no result. -/

namespace Sys2Proof.Machine

/-! ### What the host reads -/

/-- Settles O13: each register of R32 is read from the reset state. -/
theorem resetLeavesEveryRegisterZero : Obligations.ResetLeavesEveryRegisterZero := by
  refine ⟨fun r hr => ?_, rfl, fun i => ?_, rfl, rfl, rfl, rfl, fun _ => rfl⟩
  · cases r
    case id => exact absurd rfl hr
    case status => decide
    all_goals rfl
  · simp [State.reset, zeroTable]

/-- R42: the one-bit fields of STATUS, and the reserved bit 7. -/
theorem statusWord_bits (t : Status) :
    (statusWord t).getLsbD 0 = t.engine ∧ (statusWord t).getLsbD 1 = t.tableBuilt ∧ (statusWord t).getLsbD 2 = t.busy ∧
    (statusWord t).getLsbD 3 = t.err ∧ (statusWord t).getLsbD 4 = t.warn ∧ (statusWord t).getLsbD 5 = t.agree ∧
    (statusWord t).getLsbD 6 = t.dbgTbl ∧ (statusWord t).getLsbD 7 = false ∧
    (statusWord t).getLsbD 16 = t.peWidth ∧ (statusWord t).getLsbD 17 = t.pePoly ∧
    (statusWord t).getLsbD 18 = t.peInit ∧ (statusWord t).getLsbD 19 = t.peXorout ∧
    (statusWord t).getLsbD 20 = t.niEngine ∧ (statusWord t).getLsbD 21 = t.niBuffer := by
  simp only [statusWord, BitVec.getLsbD_append]
  simp

/-- R42: the wider fields of STATUS, and its reserved bits above ERRCODE. -/
theorem statusWord_fields (t : Status) :
    (statusWord t).extractLsb' 8 8 = t.errcode ∧ (statusWord t).extractLsb' 22 2 = 0 ∧
    (statusWord t).extractLsb' 24 4 = t.lastop ∧ (statusWord t).extractLsb' 28 36 = 0 := by
  simp (disch := decide) only [statusWord, BitVec.extractLsb'_append_eq_of_le,
    BitVec.extractLsb'_append_eq_of_add_le]
  simp

/-- Settles O25: the one-bit fields, then the wider ones. -/
theorem statusWordHasTheLayoutOfTheRegister : Obligations.StatusWordHasTheLayoutOfTheRegister := by
  intro t
  obtain ⟨h0, h1, h2, h3, h4, h5, h6, h7, h16, h17, h18, h19, h20, h21⟩ := statusWord_bits t
  obtain ⟨h8, h22, h24, h28⟩ := statusWord_fields t
  exact ⟨h0, h1, h2, h3, h4, h5, h6, h7, h8, h16, h17, h18, h19, h20, h21, h22, h24, h28⟩

/-! ### The CMD write and the message -/

/-- R41: CMD, at offset 0x100, takes a command while none is pending. -/
theorem hostWrite_cmd {s : State} (hbusy : s.status.busy = false) (v : Word) :
    hostWrite s 0x100 .b8 v = (acceptCommand v s, .okay) := by
  rw [hostWrite, hbusy]
  rfl

/-- R86: CMD reads 0. -/
theorem hostRead_cmd (s : State) : hostRead s 0x100 .b8 = (0, .okay) := rfl

/-- Settles O18: the port accepts the write, and a transaction while BUSY is set leaves the block as it is. -/
theorem cmdWriteLatchesThePendingCommand : Obligations.CmdWriteLatchesThePendingCommand :=
  fun s v => ⟨fun hbusy => ⟨hostWrite_cmd hbusy v, hostTransaction_busy_block rfl⟩, hostRead_cmd s⟩

/-- Settles O34: the message is a map over the offsets 0 to BUF_LEN - 1. -/
theorem messageIsTheDescribedBytesInOrder : Obligations.MessageIsTheDescribedBytesInOrder :=
  fun s => ⟨by simp [message], fun k hk => by simp [message, hk]⟩

/-! ### States without their labels

The name, the payload and SWAP reach no result because every command commutes with clearing them. -/

/-- R34: a configuration word with SWAP, bit 10, cleared. -/
def clearSwap (c : Word) : Word := c &&& ~~~0x400

theorem getLsbD_clearSwap (c : Word) {i : Nat} (hi : i ≠ 10) : (clearSwap c).getLsbD i = c.getLsbD i := by
  have hswap : (0x400 : Word) = BitVec.twoPow 64 10 := by decide
  by_cases h64 : i < 64
  · simp [clearSwap, hswap, hi, h64]
  · rw [BitVec.getLsbD_of_ge _ _ (by omega), BitVec.getLsbD_of_ge _ _ (by omega)]

/-- What an XOR changed of SWAP is gone once SWAP is cleared. -/
theorem clearSwap_xor (c x : Word) : clearSwap (c ^^^ (x &&& 0x400)) = clearSwap c := by
  unfold clearSwap
  generalize (0x400 : Word) = m
  ext i
  cases hm : m[i] <;> simp [hm]

section
variable (c : Word)

theorem cfgWidth_clearSwap : cfgWidth (clearSwap c) = cfgWidth c := by
  have : (clearSwap c).extractLsb' 0 7 = c.extractLsb' 0 7 := by
    apply BitVec.eq_of_getLsbD_eq
    intro i hi
    rw [BitVec.getLsbD_extractLsb', BitVec.getLsbD_extractLsb', getLsbD_clearSwap c (by omega)]
  rw [cfgWidth, this, cfgWidth]

theorem cfgRefin_clearSwap : cfgRefin (clearSwap c) = cfgRefin c := getLsbD_clearSwap c (by decide)
theorem cfgRefout_clearSwap : cfgRefout (clearSwap c) = cfgRefout c := getLsbD_clearSwap c (by decide)
theorem cfgFast_clearSwap : cfgFast (clearSwap c) = cfgFast c := getLsbD_clearSwap c (by decide)
theorem cfgSwap_clearSwap : cfgSwap (clearSwap c) = false := by simp [cfgSwap, clearSwap]

end

/-- A record with its label, its payload and SWAP cleared (R34, R36). -/
def ParamRecord.unlabel (p : ParamRecord) : ParamRecord :=
  { p with name := 0, userdata := 0, cfg := clearSwap p.cfg }

/-- The state with the staged and the held label, payload and SWAP cleared. -/
def State.unlabel (s : State) : State :=
  { s with staged := s.staged.unlabel, eng := { s.eng with params := s.eng.params.unlabel } }

/-- An Engine with SWAP cleared. -/
def Engine.noSwap (E : Engine) : Engine := { E with swap := false }

/-- A command's answer with the labels cleared. -/
def unlabelResult : Result → Result
  | .next s => .next s.unlabel
  | .fault f => .fault f
  | .refused r => .refused r

section
variable (E : Engine) (k : KernelSel) (j : Kernel) (msg : List Byte)

theorem resolve_noSwap : resolve E.noSwap k = resolve E k := by cases k <;> rfl
theorem widthNotAligned_noSwap : widthNotAligned E.noSwap j = widthNotAligned E j := rfl
theorem runKernel_noSwap : runKernel j E.noSwap msg = runKernel j E msg := by cases j <;> rfl
theorem bitFast_noSwap : bitFast E.noSwap msg = bitFast E msg := runKernel_noSwap E .bitFast msg
theorem debugResults_noSwap : debugResults E.noSwap msg = debugResults E msg := rfl
theorem debugAgree_noSwap : debugAgree E.noSwap msg = debugAgree E msg := rfl

end

section
variable (s : State)

theorem engineOf_unlabel : engineOf s.unlabel = (engineOf s).noSwap := by
  simp [engineOf, Engine.noSwap, State.unlabel, ParamRecord.unlabel, cfgWidth_clearSwap, cfgRefin_clearSwap,
    cfgRefout_clearSwap, cfgFast_clearSwap, cfgSwap_clearSwap]

theorem stagedViolations_unlabel : stagedViolations s.unlabel = stagedViolations s := by
  simp [stagedViolations, State.unlabel, ParamRecord.unlabel, cfgWidth_clearSwap]

theorem loadEngine_unlabel : loadEngine s.unlabel = (loadEngine s).unlabel := by
  simp [loadEngine, State.unlabel, ParamRecord.unlabel, cfgWidth_clearSwap]

theorem buildTable_unlabel : buildTable s.unlabel = (buildTable s).unlabel := by
  simp [buildTable, State.unlabel, ParamRecord.unlabel, cfgWidth_clearSwap, cfgRefin_clearSwap]

/-- The Engine registers at 0 hold no label. -/
theorem releaseEngine_unlabel : releaseEngine s.unlabel = (releaseEngine s).unlabel := by
  simp [releaseEngine, State.unlabel, ParamRecord.unlabel, EngineRegs.zero, ParamRecord.zero, clearSwap]

theorem status_unlabel : s.unlabel.status = s.status := rfl
theorem bufValid_unlabel : bufValid s.unlabel = bufValid s := rfl
theorem bufferOutOfRange_unlabel : bufferOutOfRange s.unlabel = bufferOutOfRange s := rfl
theorem message_unlabel : message s.unlabel = message s := rfl

theorem execCreate_unlabel : execCreate s.unlabel = unlabelResult (execCreate s) := by
  simp only [execCreate, status_unlabel, stagedViolations_unlabel, loadEngine_unlabel, buildTable_unlabel]
  split_ifs <;> rfl

theorem execDestroy_unlabel : execDestroy s.unlabel = unlabelResult (execDestroy s) := by
  simp only [execDestroy, status_unlabel, releaseEngine_unlabel]
  split_ifs <;> rfl

theorem execBuildTable_unlabel : execBuildTable s.unlabel = unlabelResult (execBuildTable s) := by
  simp only [execBuildTable, status_unlabel, buildTable_unlabel]
  split_ifs <;> rfl

theorem runCommon_unlabel (k : KernelSel) : runCommon k s.unlabel = unlabelResult (runCommon k s) := by
  simp only [runCommon, status_unlabel, bufValid_unlabel, bufferOutOfRange_unlabel, message_unlabel, engineOf_unlabel,
    resolve_noSwap, widthNotAligned_noSwap, runKernel_noSwap]
  split_ifs <;> rfl

theorem execDebug_unlabel : execDebug s.unlabel = unlabelResult (execDebug s) := by
  simp only [execDebug, status_unlabel, bufValid_unlabel, bufferOutOfRange_unlabel, message_unlabel, engineOf_unlabel,
    debugResults_noSwap, debugAgree_noSwap, bitFast_noSwap]
  split_ifs <;> rfl

theorem selftestCommon_unlabel (k : KernelSel) : selftestCommon k s.unlabel = unlabelResult (selftestCommon k s) := by
  have hcheck : s.unlabel.eng.params.check = s.eng.params.check := rfl
  simp only [selftestCommon, status_unlabel, engineOf_unlabel, resolve_noSwap, widthNotAligned_noSwap,
    runKernel_noSwap, hcheck]
  split_ifs <;> rfl

theorem execReflect_unlabel (n : Nat) : execReflect n s.unlabel = unlabelResult (execReflect n s) := by
  unfold execReflect
  split_ifs <;> rfl

/-- R36, R276: every command commutes with clearing the labels. -/
theorem exec_unlabel (i : Instr) : exec i s.unlabel = unlabelResult (exec i s) := by
  cases i with
  | create => exact execCreate_unlabel s
  | destroy => exact execDestroy_unlabel s
  | buildTable => exact execBuildTable_unlabel s
  | debug => exact execDebug_unlabel s
  | reflect n => exact execReflect_unlabel s n
  | runAuto => exact runCommon_unlabel s .auto
  | runTblAug => exact runCommon_unlabel s .tblAug
  | runTblFast => exact runCommon_unlabel s .tblFast
  | runBitAug => exact runCommon_unlabel s .bitAug
  | runBitFast => exact runCommon_unlabel s .bitFast
  | selftestAuto => exact selftestCommon_unlabel s .auto
  | selftestTblAug => exact selftestCommon_unlabel s .tblAug
  | selftestTblFast => exact selftestCommon_unlabel s .tblFast
  | selftestBitAug => exact selftestCommon_unlabel s .bitAug
  | selftestBitFast => exact selftestCommon_unlabel s .bitFast

end

/-- States that differ in their labels alone are left so by a command. -/
theorem unlabel_exec_congr {i : Instr} {s s' t t' : State} (h : s'.unlabel = s.unlabel) (ht : exec i s = .next t)
    (ht' : exec i s' = .next t') : t'.unlabel = t.unlabel := by
  have := calc Host.Outcome.next t'.unlabel = unlabelResult (exec i s') := by rw [ht', unlabelResult]
    _ = exec i s'.unlabel := (exec_unlabel s' i).symm
    _ = exec i s.unlabel := by rw [h]
    _ = unlabelResult (exec i s) := exec_unlabel s i
    _ = .next t.unlabel := by rw [ht, unlabelResult]
  exact Host.Outcome.next.inj this

/-- Settles O43: the two states are one once their labels are cleared, and no result register is a label. -/
theorem labelPayloadAndSwapReachNoResult : Obligations.LabelPayloadAndSwapReachNoResult := by
  intro i s n u n' u' x x' s'
  obtain ⟨t, ht⟩ := exec_answers_next i s
  obtain ⟨t', ht'⟩ := exec_answers_next i s'
  have hs : s'.unlabel = s.unlabel := by
    simp only [s', State.unlabel, ParamRecord.unlabel, clearSwap_xor]
  have h := unlabel_exec_congr hs ht ht'
  have same {α : Type} (f : State → α) : f t'.unlabel = f t.unlabel := congrArg f h
  exact ⟨t, t', ht, ht', same (·.result), same (·.status), same (·.dbg), same (·.table),
    same (·.eng.crcmask), same (·.eng.highbit), same (·.eng.initDirect), same (·.eng.initNodirect)⟩

end Sys2Proof.Machine
end

section
/-! SUPPORT. The memory family: which offsets are mapped, what a transaction does at the offset of a register, of a
table entry and in the message buffer, and what an accepted write leaves unchanged. -/

namespace Sys2Proof.Machine

/-! ### The register map -/

/-- R85: an offset of the register window is mapped exactly when R32 lists a register there. -/
theorem regAt?_isSome_iff (off : Nat) : (regAt? off).isSome = true ↔ off ∈ allRegs.map Reg.offset := by
  simp [regAt?, List.find?_isSome]

theorem offset_of_regAt? {off : Nat} {r : Reg} (h : regAt? off = some r) : r.offset = off := by
  simpa using List.find?_some h

theorem regAt?_offset (r : Reg) : regAt? r.offset = some r := by cases r <;> rfl

theorem offset_toNat (r : Reg) : (BitVec.ofNat 17 r.offset).toNat = r.offset := by cases r <;> rfl

theorem offset_lt (r : Reg) : r.offset < tableBase := by cases r <;> decide

theorem offset_mod_eight (r : Reg) : r.offset % 8 = 0 := by cases r <;> rfl

/-! ### What an offset reaches -/

theorem target?_reg (n : Nat) (r : Reg) : target? n r.offset .b8 = some (.reg r) := by
  have h := offset_lt r
  simp [target?, h, h.trans (by decide : tableBase < tableEnd), offset_mod_eight, regAt?_offset]

theorem target?_table (n : Nat) (i : Fin 256) : target? n (0x800 + 8 * i.val) .b8 = some (.table i) := by
  have hi := i.isLt
  simp [target?, show 0x800 + 8 * i.val < 0x1000 by omega, show (0x800 + 8 * i.val) % 8 = 0 by omega]

theorem target?_of_fits {n off : Nat} {size : AccessSize} (hbase : bufferBase ≤ off) (halign : off % size.bytes = 0)
    (hfits : off - bufferBase + size.bytes ≤ n) : target? n off size = some (.buffer (off - bufferBase)) := by
  simp [target?, hbase, halign, hfits, show ¬ off < tableEnd by simp only [tableEnd, bufferBase] at *; omega]

/-- R81, R85: a transaction that reaches a register is at its offset. -/
theorem offset_of_target? {n off : Nat} {size : AccessSize} {r : Reg} (h : target? n off size = some (.reg r)) :
    r.offset = off := by
  unfold target? at h
  split_ifs at h
  · simp only [Option.map_eq_some_iff, Target.reg.injEq, exists_eq_right] at h
    exact offset_of_regAt? h
  all_goals simp at h

/-- R82 to R85: which transactions reach something. -/
theorem target?_isSome_iff (n off : Nat) (size : AccessSize) :
    (target? n off size).isSome = true ↔
      (size = .b8 ∧ off % 8 = 0 ∧ (off ∈ allRegs.map Reg.offset ∨ (tableBase ≤ off ∧ off < tableEnd))) ∨
      (bufferBase ≤ off ∧ off % size.bytes = 0 ∧ off - bufferBase + size.bytes ≤ n) := by
  have hreg (h : off ∈ allRegs.map Reg.offset) : off < tableBase := by
    obtain ⟨r, -, rfl⟩ := List.mem_map.1 h
    exact offset_lt r
  unfold target?
  by_cases hwindow : off < tableEnd
  · have hbuffer : ¬ bufferBase ≤ off := by simp only [tableEnd, bufferBase] at *; omega
    by_cases haccess : size = .b8 ∧ off % 8 = 0
    · by_cases htable : off < tableBase
      · simp [hwindow, haccess, htable, hbuffer, regAt?_isSome_iff, htable.not_ge]
      · simp [hwindow, haccess, htable, hbuffer, not_lt.1 htable]
    · simp only [hwindow, haccess, hbuffer, if_true, if_false, Option.isSome_none]
      tauto
  · have hregister : off ∉ allRegs.map Reg.offset := fun h => hwindow ((hreg h).trans (by decide))
    by_cases hfits : bufferBase ≤ off ∧ off % size.bytes = 0 ∧ off - bufferBase + size.bytes ≤ n
    · simp [hwindow, hfits]
    · simp only [hwindow, hfits, hregister, if_false, Option.isSome_none]
      tauto

/-! ### Reads and writes by what they reach -/

section
variable {s : State} {off : BitVec 17} {size : AccessSize}

theorem hostRead_okay_iff : (hostRead s off size).2 = .okay ↔ (target? s.bufBytes off.toNat size).isSome = true := by
  unfold hostRead
  split <;> simp [*]

/-- R84, R85: an unmapped transaction is refused. -/
theorem refused_of_target?_none (h : target? s.bufBytes off.toNat size = none) :
    hostRead s off size = (0, .error) ∧ ∀ v, hostWrite s off size v = (s, .error) := by
  simp [hostRead, hostWrite, h]

theorem hostRead_buffer {a : Nat} (h : target? s.bufBytes off.toNat size = some (.buffer a)) :
    hostRead s off size = (word (memRead s a size.bytes), .okay) := by
  simp [hostRead, h]

theorem hostWrite_buffer {a : Nat} (hbusy : s.status.busy = false)
    (h : target? s.bufBytes off.toNat size = some (.buffer a)) (v : Word) :
    hostWrite s off size v = (memWrite s a size.bytes v.toNat, .okay) := by
  simp [hostWrite, hbusy, h]

theorem hostWrite_target_reg {r : Reg} (hbusy : s.status.busy = false) (hacc : r.access ≠ .ro)
    (h : target? s.bufBytes off.toNat size = some (.reg r)) (v : Word) :
    hostWrite s off size v = (writeReg s r v, .okay) := by
  simp [hostWrite, hbusy, h, hacc]

end

section
variable (s : State) (r : Reg) (i : Fin 256)

/-- R86: every register is read at its offset. -/
theorem hostRead_reg : hostRead s (BitVec.ofNat 17 r.offset) .b8 = (readReg s r, .okay) := by
  simp only [hostRead, offset_toNat, target?_reg]

/-- R87: a register that is not read-only is written at its offset. -/
theorem hostWrite_reg (hbusy : s.status.busy = false) (hacc : r.access ≠ .ro) (v : Word) :
    hostWrite s (BitVec.ofNat 17 r.offset) .b8 v = (writeReg s r v, .okay) :=
  hostWrite_target_reg hbusy hacc (by rw [offset_toNat, target?_reg]) v

/-- R86: a read-only register refuses every write. -/
theorem hostWrite_ro (hacc : r.access = .ro) (v : Word) :
    hostWrite s (BitVec.ofNat 17 r.offset) .b8 v = (s, .error) := by
  simp only [hostWrite, offset_toNat, target?_reg, hacc, if_true, ite_self]

theorem tableOffset_toNat : (BitVec.ofNat 17 (0x800 + 8 * i.val)).toNat = 0x800 + 8 * i.val := by
  have hi := i.isLt
  rw [BitVec.toNat_ofNat, Nat.mod_eq_of_lt (by omega)]

theorem hostRead_table : hostRead s (BitVec.ofNat 17 (0x800 + 8 * i.val)) .b8 = (s.table[i], .okay) := by
  simp only [hostRead, tableOffset_toNat, target?_table]

theorem hostWrite_table (v : Word) : hostWrite s (BitVec.ofNat 17 (0x800 + 8 * i.val)) .b8 v = (s, .error) := by
  simp only [hostWrite, tableOffset_toNat, target?_table, ite_self]

end

/-! ### What a write to a register stores, and what it leaves unchanged -/

/-- R87: what an RW register keeps of the data. -/
def Reg.stored : Reg → Word → Word
  | .pCfg, v => v &&& cfgWritable
  | .bufCtrl, v => v &&& bufCtrlWritable
  | _, v => v

section
variable {r : Reg} (hrw : r.access = .rw) (s : State) (v : Word)
include hrw

/-- R87: the register reads what it stored, and every other register what it read before. For each pair of registers
this is a field of a record with one field replaced. -/
theorem readReg_writeReg (r' : Reg) :
    readReg (writeReg s r v) r' = if r' = r then r.stored v else readReg s r' := by
  cases r <;> cases hrw <;> cases r' <;> rfl

/-- R87: a write to an RW register leaves the table, the buffer, PENDING and STATUS as they are. -/
theorem writeReg_frame : (writeReg s r v).table = s.table ∧ (∀ a, (writeReg s r v).byte a = s.byte a) ∧
    (writeReg s r v).pending = s.pending ∧ (writeReg s r v).status = s.status := by
  cases r <;> cases hrw <;> exact ⟨rfl, fun _ => rfl, rfl, rfl⟩

/-- R92: storing the same data again changes nothing. -/
theorem writeReg_writeReg : writeReg (writeReg s r v) r v = writeReg s r v := by
  cases r <;> cases hrw <;> rfl

end

theorem writeReg_bufBytes (s : State) (r : Reg) (v : Word) : (writeReg s r v).bufBytes = s.bufBytes := by
  cases r <;> rfl

/-! ### The message buffer -/

section
variable (s : State) (a n : Nat)

/-- R89: byte lane `k` of a little-endian read. -/
theorem memRead_lane {k : Nat} (hn : n ≤ 8) (hk : k < n) :
    (word (memRead s a n)).extractLsb' (8 * k) 8 = s.byte (a + k) := by
  refine BitVec.eq_of_getLsbD_eq fun i hi => ?_
  rw [BitVec.getLsbD_extractLsb', BitVec.getLsbD_ofNat, memRead_testBit, show (8 * k + i) / 8 = k by omega,
    show (8 * k + i) % 8 = i by omega]
  simp [hi, show 8 * k + i < 64 by omega, show 8 * k + i < 8 * n by omega]

theorem memRead_lt : memRead s a n < 2 ^ (8 * n) :=
  Nat.lt_pow_two_of_testBit _ fun i hi => by simp [memRead_testBit, hi]

theorem toNat_word_memRead (hn : n ≤ 8) : (word (memRead s a n)).toNat = memRead s a n :=
  toNat_word_of_lt (w := 8 * n) (by omega) (memRead_lt s a n)

/-- R89: what was written is read back. -/
theorem memRead_memWrite (v : Nat) : memRead (memWrite s a n v) a n = v % 2 ^ (8 * n) := by
  refine Nat.eq_of_testBit_eq fun i => ?_
  rw [memRead_testBit, Nat.testBit_mod_two_pow]
  by_cases hi : i < 8 * n
  · rw [memWrite_byte s a n v (show i / 8 < n by omega), BitVec.getLsbD_ofNat, Nat.testBit_shiftRight,
      Nat.div_add_mod]
    simp [hi, Nat.mod_lt]
  · simp [hi]

theorem get?_memWrite_below (v : Nat) {b : Nat} (h : b < a) :
    (memWrite s a n v).msgbuf.get? b = s.msgbuf.get? b := by
  induction n generalizing s a v with
  | zero => rfl
  | succ n ih => rw [memWrite, ih _ _ _ (by omega), setByte_msgbuf, get?_set_other _ _ h.ne]

/-- R92: writing the same bytes again changes nothing, for a buffer in its canonical form. -/
theorem memWrite_memWrite (v : Nat) (hwf : s.msgbuf.wf = true) :
    memWrite (memWrite s a n v) a n v = memWrite s a n v := by
  induction n generalizing s a v with
  | zero => rfl
  | succ n ih =>
    let u := s.setByte a (BitVec.ofNat 8 v)
    have huwf : u.msgbuf.wf = true := wf_set _ _ hwf
    have hlisted : (memWrite u (a + 1) n (v >>> 8)).msgbuf.get? a = some (BitVec.ofNat 8 v) := by
      rw [get?_memWrite_below _ _ _ _ (Nat.lt_succ_self a), setByte_msgbuf, get?_set_same]
    have hstays : (memWrite u (a + 1) n (v >>> 8)).setByte a (BitVec.ofNat 8 v) = memWrite u (a + 1) n (v >>> 8) := by
      rw [State.setByte, set_eq_self (memWrite_wf _ _ _ _ huwf) hlisted]
    calc memWrite (memWrite s a (n + 1) v) a (n + 1) v
      _ = memWrite ((memWrite u (a + 1) n (v >>> 8)).setByte a (BitVec.ofNat 8 v)) (a + 1) n (v >>> 8) := rfl
      _ = memWrite u (a + 1) n (v >>> 8) := by rw [hstays, ih u (a + 1) (v >>> 8) huwf]

end

theorem AccessSize.bytes_le (size : AccessSize) : size.bytes ≤ 8 := by cases size <;> decide

/-! ### The statements about offsets and registers -/

/-- Settles O15: the offsets the statement lists are those of the register map. -/
theorem onlyMappedAlignedTransactionsAreAccepted : Obligations.OnlyMappedAlignedTransactionsAreAccepted := by
  intro s o size
  have hmapped := target?_isSome_iff s.bufBytes o.toNat size
  refine ⟨hostRead_okay_iff.trans hmapped, fun h => refused_of_target?_none ?_⟩
  exact Option.not_isSome_iff_eq_none.1 (mt hmapped.1 h)

/-- Settles O16: each list of the statement is the register map, mapped over its registers. -/
theorem registersReadBackAndReadOnlyOnesRefuseWrites : Obligations.RegistersReadBackAndReadOnlyOnesRefuseWrites := by
  intro s
  refine ⟨?_, ?_, hostRead_reg s, rfl, hostRead_table s, fun r v hacc => hostWrite_ro s r hacc v, hostWrite_table s⟩
  · change ∀ p ∈ allRegs.map fun r => (BitVec.ofNat 17 r.offset, readReg s r), _
    exact List.forall_mem_map.2 fun r _ => hostRead_reg s r
  · change ∀ o ∈ (allRegs.filter fun r => r.access = .ro).map fun r => BitVec.ofNat 17 r.offset, _
    refine List.forall_mem_map.2 fun r hr v => hostWrite_ro s r ?_ v
    simpa using (List.mem_filter.1 hr).2

/-- R32: the RW registers, in the order of their offsets. -/
def rwRegs : List Reg := allRegs.filter fun r => r.access = .rw

theorem access_of_mem_rwRegs {r : Reg} (h : r ∈ rwRegs) : r.access = .rw := by
  simpa using (List.mem_filter.1 h).2

/-- R87: the writable bits of an RW register. -/
def Reg.writable : Reg → Word
  | .pCfg => cfgWritable
  | .bufCtrl => bufCtrlWritable
  | _ => BitVec.allOnes 64

theorem Reg.stored_eq (r : Reg) (v : Word) : r.stored v = v &&& r.writable := by
  cases r
  case pCfg => rfl
  case bufCtrl => rfl
  all_goals exact BitVec.and_allOnes.symm

/-- Settles O17: each list of the statement is the list of RW registers, with what a write makes of the state or with
the writable bits. -/
theorem writableBitsAreStoredAndReadBack : Obligations.WritableBitsAreStoredAndReadBack := by
  have accepted {s : State} (hbusy : s.status.busy = false) (v : Word) {r : Reg} (hr : r.access = .rw) :
      hostWrite s (BitVec.ofNat 17 r.offset) .b8 v = (writeReg s r v, .okay) :=
    hostWrite_reg s r hbusy (by simp [hr]) v
  refine ⟨fun s v hbusy => ?_, fun s v r m hbusy hmem => ?_⟩
  · change ∀ p ∈ rwRegs.map fun r => (BitVec.ofNat 17 r.offset, writeReg s r v), _
    exact List.forall_mem_map.2 fun r hr => accepted hbusy v (access_of_mem_rwRegs hr)
  · change (r, m) ∈ rwRegs.map fun r => (r, r.writable) at hmem
    obtain ⟨r, hr, ⟨⟩⟩ := List.mem_map.1 hmem
    have hrw := access_of_mem_rwRegs hr
    refine ⟨writeReg s r v, accepted hbusy v hrw, ?_, fun r' hne => ?_, writeReg_frame hrw s v⟩
    · rw [readReg_writeReg hrw, if_pos rfl, Reg.stored_eq]
    · rw [readReg_writeReg hrw, if_neg hne]

/-! ### The busy lockout -/

/-- R88: of the registers, only STATUS shows BUSY. -/
theorem readReg_setBusy {r : Reg} (hr : r ≠ .status) (s : State) (b : Bool) :
    readReg { s with status := { s.status with busy := b } } r = readReg s r := by
  cases r
  case status => exact absurd rfl hr
  all_goals rfl

/-- Bit 2 of a word, by its two neighbours below it and the bits above it. -/
theorem append_one_append (h : BitVec 61) (x y : BitVec 1) :
    h ++ 1#1 ++ x ++ y = (h ++ 0#1 ++ x ++ y) ||| (0#61 ++ 1#1 ++ 0#1 ++ 0#1) := by
  simp only [BitVec.or_append, BitVec.or_zero, BitVec.zero_or]

/-- R42: BUSY is bit 2 of STATUS. -/
theorem statusWord_busy (t : Status) :
    statusWord { t with busy := true } = statusWord { t with busy := false } ||| 0x4 :=
  append_one_append _ _ _

/-- Settles O19: no target depends on BUSY, and what it holds does not either, STATUS apart. -/
theorem busyRefusesEveryWriteAndNoRead : Obligations.BusyRefusesEveryWriteAndNoRead := by
  intro s o size hbusy
  refine ⟨hostWrite_busy hbusy o size, fun ho => ?_, ?_, hostTransaction_busy_block hbusy⟩
  · unfold hostRead
    cases htarget : target? s.bufBytes o.toNat size with
    | none => rfl
    | some g =>
      cases g with
      | table i => rfl
      | buffer a =>
        have hmem :
            memRead { s with status := { s.status with busy := false } } a size.bytes = memRead s a size.bytes :=
          memRead_congr fun _ _ => rfl
        simp only [hmem]
      | reg r =>
        have hr : r ≠ .status := by
          rintro rfl
          exact ho (BitVec.eq_of_toNat_eq (offset_of_target? htarget).symm)
        simp only [readReg_setBusy hr]
  · have hstatus : s.status = { s.status with busy := true } := by rw [← hbusy]
    change statusWord s.status = statusWord { s.status with busy := false } ||| 0x4
    rw [hstatus, statusWord_busy]

/-! ### The statements about the message buffer -/

/-- Settles O20: the target is the buffer at `off - 0x10000`; the rest is said of `memRead` and `memWrite`. -/
theorem bufferTransactionsAreLittleEndian : Obligations.BufferTransactionsAreLittleEndian := by
  intro s o size v hbase halign hfits a
  have htarget := target?_of_fits hbase halign hfits
  have hn := size.bytes_le
  rw [hostRead_buffer htarget]
  refine ⟨fun k hk => memRead_lane s a _ hn hk, ?_, fun hbusy => ?_⟩
  · rw [toNat_word_memRead s _ _ hn]
    exact memRead_lt s a _
  · refine ⟨_, hostWrite_buffer hbusy htarget v, fun k hk => ?_, fun b hb => ?_, memWrite_frame s a _ _, ?_⟩
    · rw [memWrite_byte s a _ _ hk]
      rfl
    · exact hb.elim (memWrite_byte_below s a _ _) (memWrite_byte_above s a _ _)
    · have htarget' : target? (memWrite s a size.bytes v.toNat).bufBytes o.toNat size = some (.buffer a) := by
        rw [memWrite_frame]
        exact htarget
      rw [hostRead_buffer htarget', toNat_word_memRead _ _ _ hn, memRead_memWrite]

/-- Settles O21: an accepted write leaves the port as it was, so the second one is accepted too and stores the same. -/
theorem readsAndRepeatedWritesHaveNoSideEffect : Obligations.ReadsAndRepeatedWritesHaveNoSideEffect := by
  intro s o size v hwf
  refine ⟨rfl, fun ho => ?_⟩
  rcases hostWrite_cases s o size v with e | ⟨r, hbusy, htarget, hacc, e⟩ | ⟨a, hbusy, htarget, e⟩ <;> rw [e]
  · rw [e]
  · have hrw : r.access = .rw := by
      cases h : r.access with
      | rw => rfl
      | ro => exact absurd h hacc
      | wo =>
        cases r <;> cases h
        exact absurd (BitVec.eq_of_toNat_eq (offset_of_target? htarget).symm) ho
    obtain ⟨-, -, -, hstatus⟩ := writeReg_frame hrw s v
    rw [hostWrite_target_reg (by rw [hstatus, hbusy]) hacc (by rw [writeReg_bufBytes, htarget]),
      writeReg_writeReg hrw]
  · have hframe := memWrite_frame s a size.bytes v.toNat
    rw [hostWrite_buffer (by rw [hframe, hbusy]) (by rw [hframe, htarget]), memWrite_memWrite _ _ _ _ hwf]

end Sys2Proof.Machine
end

section
/-! SUPPORT. The memory family: what drives the block (the host's program, the turns, the answers) reaches no
completion, and what the host's turns leave of it while a command is pending. -/

namespace Sys2Proof.Machine

/-! ### Completions and what drives the block -/

/-- The state with another host program, other turns and other answers. -/
def State.withDriver (p : List HostOp) (ts : List Turn) (rs : List Response) (s : State) : State :=
  { s with program := p, turns := ts, responses := rs }

theorem block_eq_withDriver (s : State) : s.block = s.withDriver [] [] [] := rfl

/-- A command's answer with its next state changed by `f`. -/
def mapNext (f : State → State) : Result → Result
  | .next s => .next (f s)
  | .fault e => .fault e
  | .refused e => .refused e

section
variable (p : List HostOp) (ts : List Turn) (rs : List Response) (s : State)

theorem execCreate_withDriver :
    execCreate (s.withDriver p ts rs) = mapNext (State.withDriver p ts rs) (execCreate s) := by
  simp only [execCreate, apply_ite (mapNext _)]
  rfl

theorem execDestroy_withDriver :
    execDestroy (s.withDriver p ts rs) = mapNext (State.withDriver p ts rs) (execDestroy s) := by
  simp only [execDestroy, apply_ite (mapNext _)]
  rfl

theorem execBuildTable_withDriver :
    execBuildTable (s.withDriver p ts rs) = mapNext (State.withDriver p ts rs) (execBuildTable s) := by
  simp only [execBuildTable, apply_ite (mapNext _)]
  rfl

theorem runCommon_withDriver (k : KernelSel) :
    runCommon k (s.withDriver p ts rs) = mapNext (State.withDriver p ts rs) (runCommon k s) := by
  simp only [runCommon, apply_ite (mapNext _)]
  rfl

theorem execDebug_withDriver :
    execDebug (s.withDriver p ts rs) = mapNext (State.withDriver p ts rs) (execDebug s) := by
  simp only [execDebug, apply_ite (mapNext _)]
  rfl

theorem selftestCommon_withDriver (k : KernelSel) :
    selftestCommon k (s.withDriver p ts rs) = mapNext (State.withDriver p ts rs) (selftestCommon k s) := by
  simp only [selftestCommon, apply_ite (mapNext _)]
  rfl

theorem execReflect_withDriver (n : Nat) :
    execReflect n (s.withDriver p ts rs) = mapNext (State.withDriver p ts rs) (execReflect n s) := by
  simp only [execReflect, apply_ite (mapNext _)]
  rfl

/-- R96 (c): every command commutes with a change of what drives the block. -/
theorem exec_withDriver (i : Instr) :
    exec i (s.withDriver p ts rs) = mapNext (State.withDriver p ts rs) (exec i s) := by
  cases i with
  | create => exact execCreate_withDriver p ts rs s
  | destroy => exact execDestroy_withDriver p ts rs s
  | buildTable => exact execBuildTable_withDriver p ts rs s
  | debug => exact execDebug_withDriver p ts rs s
  | reflect n => exact execReflect_withDriver p ts rs s n
  | runAuto => exact runCommon_withDriver p ts rs s .auto
  | runTblAug => exact runCommon_withDriver p ts rs s .tblAug
  | runTblFast => exact runCommon_withDriver p ts rs s .tblFast
  | runBitAug => exact runCommon_withDriver p ts rs s .bitAug
  | runBitFast => exact runCommon_withDriver p ts rs s .bitFast
  | selftestAuto => exact selftestCommon_withDriver p ts rs s .auto
  | selftestTblAug => exact selftestCommon_withDriver p ts rs s .tblAug
  | selftestTblFast => exact selftestCommon_withDriver p ts rs s .tblFast
  | selftestBitAug => exact selftestCommon_withDriver p ts rs s .bitAug
  | selftestBitFast => exact selftestCommon_withDriver p ts rs s .bitFast

theorem completePending_withDriver :
    completePending (s.withDriver p ts rs) = mapNext (State.withDriver p ts rs) (completePending s) := by
  have hpending : (s.withDriver p ts rs).pending = s.pending := rfl
  rcases completePending_cases s with ⟨i, hdecode, e⟩ | ⟨_, hdecode, e⟩ <;> rw [e, completePending, hpending, hdecode]
  · exact exec_withDriver p ts rs s i
  · rfl

end

section
variable {s s' t t' : State}

/-- A completion leaves the turns as they are. -/
theorem turns_of_completePending (h : completePending s = .next t) : t.turns = s.turns := by
  have hown := completePending_withDriver s.program s.turns s.responses s
  rw [show s.withDriver s.program s.turns s.responses = s from rfl, h] at hown
  rw [Host.Outcome.next.inj hown]
  rfl

/-- R96 (c): the block after a completion depends on the block before it alone. -/
theorem completePending_block_congr (hblock : s'.block = s.block) (h : completePending s = .next t)
    (h' : completePending s' = .next t') : t'.block = t.block := by
  have block_next {u v : State} (hv : completePending u = .next v) : completePending u.block = .next v.block := by
    rw [block_eq_withDriver, completePending_withDriver, hv]
    rfl
  have hsame := block_next h'
  rw [hblock, block_next h] at hsame
  exact (Host.Outcome.next.inj hsame).symm

theorem completePending_answers_next (s : State) : ∃ t, completePending s = .next t := by
  rcases completePending_cases s with ⟨i, -, e⟩ | ⟨_, -, e⟩
  · rw [e]
    exact exec_answers_next i s
  · exact ⟨_, e⟩

/-! ### The host's turns while a command is pending -/

/-- R88: a host turn while BUSY is set leaves the block as it is. -/
theorem hostTurn_busy_block (h : s.status.busy = true) : (hostTurn s).block = s.block := by
  unfold hostTurn
  split
  · rfl
  · rw [setProgram_block, hostTransaction_busy_block h]
  · split
    · exact hostTransaction_busy_block h _
    · rw [setProgram_block, hostTransaction_busy_block h]

theorem hostTurn_turns (s : State) : (hostTurn s).turns = s.turns :=
  hostTurn_keeps (P := fun u => u.turns = s.turns) rfl (fun r v _ => by cases r <;> rfl)
    (fun a n v _ => by rw [memWrite_frame]) (fun _ _ h => h) (fun _ _ h => h)

theorem step_of_host_turn {ts : List Turn} (h : s.turns = .host :: ts) :
    step s = .next (hostTurn (setTurns ts s)) := by simp [step, takeTurn, h]

theorem step_of_engine_turn {ts : List Turn} (h : s.turns = .engine :: ts) (hbusy : s.status.busy = true) :
    step s = completePending (setTurns ts s) := by simp [step, takeTurn, h, engineTurn, hbusy]

/-- R95: a run of `k + 1` steps whose first one answers `t`. -/
theorem run_succ_of_step {k : Nat} (h : step s = .next t) :
    Host.Core.run Sys2Proof.core (k + 1) s = Host.Core.run Sys2Proof.core k t := by
  have hcore : Sys2Proof.core.step s = .next t := h
  simp only [Host.Core.run, hcore]

/-- R88, R95: after `n` host turns the ENGINE agent completes the command from the block as it was. -/
theorem run_of_host_turns (n : Nat) {ts : List Turn} (hbusy : s.status.busy = true)
    (hturns : s.turns = List.replicate n .host ++ .engine :: ts) :
    ∃ u t, u.block = s.block ∧ u.turns = ts ∧ completePending u = .next t ∧
      Host.Core.run Sys2Proof.core (n + 1) s = .next t := by
  induction n generalizing s with
  | zero =>
    obtain ⟨t, ht⟩ := completePending_answers_next (setTurns ts s)
    exact ⟨setTurns ts s, t, rfl, rfl, ht, run_succ_of_step ((step_of_engine_turn hturns hbusy).trans ht)⟩
  | succ n ih =>
    let s1 := hostTurn (setTurns (List.replicate n .host ++ .engine :: ts) s)
    have hblock : s1.block = s.block := hostTurn_busy_block hbusy
    have hbusy1 : s1.status.busy = true := (congrArg (fun b => b.status.busy) hblock).trans hbusy
    obtain ⟨u, t, hu, hut, ht, hrun⟩ := ih hbusy1 (hostTurn_turns _)
    exact ⟨u, t, hu.trans hblock, hut, ht, (run_succ_of_step (step_of_host_turn hturns)).trans hrun⟩

end

/-- Settles O22: the ENGINE agent finds the block as it was, and a completion depends on nothing else. -/
theorem hostTurnsWhileBusyDoNotChangeTheCompletion : Obligations.HostTurnsWhileBusyDoNotChangeTheCompletion := by
  intro n s ts hbusy hturns
  obtain ⟨u, t, hblock, hut, ht, hrun⟩ := run_of_host_turns n hbusy hturns
  obtain ⟨t0, ht0⟩ := completePending_answers_next s
  exact ⟨t, t0, hrun, ht0, completePending_block_congr hblock ht0 ht, (turns_of_completePending ht).trans hut⟩

end Sys2Proof.Machine
end

section
/-! SUPPORT. The encoding family: the fields of a command word in arithmetic, what `decode` answers to the word of a
command, and which words it rejects; then the statements about the encoder, the decoder, illegal words and WAIT. -/

namespace Sys2Proof.Machine

/-! ### The fields of a command word -/

section
variable (c : Word)

/-- R121: OP in arithmetic. -/
theorem fieldOp_toNat : (fieldOp c).toNat = c.toNat % 16 := by simp [fieldOp]

/-- R121: KSEL in arithmetic. -/
theorem fieldKsel_toNat : (fieldKsel c).toNat = c.toNat / 16 % 8 := by simp [fieldKsel, Nat.shiftRight_eq_div_pow]

/-- R121: RN in arithmetic. -/
theorem fieldRn_toNat : (fieldRn c).toNat = c.toNat / 256 % 128 := by simp [fieldRn, Nat.shiftRight_eq_div_pow]

/-- R120: the reserved bits in arithmetic. -/
theorem reservedBitsClear_iff : reservedBitsClear c = true ↔ c.toNat / 2 ^ 15 = 0 ∧ c.toNat / 128 % 2 = 0 := by
  have hlt := c.isLt
  have hhigh : c.extractLsb' 15 49 = 0 ↔ c.toNat / 2 ^ 15 = 0 := by
    rw [← BitVec.toNat_inj, BitVec.extractLsb'_toNat, Nat.shiftRight_eq_div_pow]
    change _ = 0 ↔ _
    omega
  have h7 : c.getLsbD 7 = false ↔ c.toNat / 128 % 2 = 0 := by
    rw [BitVec.getLsbD, Nat.testBit_eq_decide_div_mod_eq, decide_eq_false_iff_not]
    omega
  rw [reservedBitsClear, Bool.and_eq_true, beq_iff_eq, Bool.not_eq_true', hhigh, h7]

end

/-- R120, R127: the word of a command is the only one with the command's fields and every reserved bit 0. -/
theorem encode_eq_of_fields {c : Word} {i : Instr} (hres : reservedBitsClear c = true) (hop : fieldOp c = i.op)
    (hksel : fieldKsel c = i.ksel) (hrn : fieldRn c = i.rn) : encode i = c := by
  rw [encode, ← hop, ← hksel, ← hrn, commandWord_fields hres]

/-- R120, R121: the fields of the word of a well-formed command. -/
theorem encode_fields (i : Instr) : Laws.EncodeFields.Statement i := by
  cases i with
  | create => exact Laws.EncodeFields.create
  | destroy => exact Laws.EncodeFields.destroy
  | buildTable => exact Laws.EncodeFields.buildTable
  | debug => exact Laws.EncodeFields.debug
  | reflect n => exact Laws.EncodeFields.reflect n
  | runAuto => exact Laws.EncodeFields.runAuto
  | runTblAug => exact Laws.EncodeFields.runTblAug
  | runTblFast => exact Laws.EncodeFields.runTblFast
  | runBitAug => exact Laws.EncodeFields.runBitAug
  | runBitFast => exact Laws.EncodeFields.runBitFast
  | selftestAuto => exact Laws.EncodeFields.selftestAuto
  | selftestTblAug => exact Laws.EncodeFields.selftestTblAug
  | selftestTblFast => exact Laws.EncodeFields.selftestTblFast
  | selftestBitAug => exact Laws.EncodeFields.selftestBitAug
  | selftestBitFast => exact Laws.EncodeFields.selftestBitFast

/-! ### The round trip -/

/-- R125: with the reserved bits 0 and the fields of a well-formed command, a word decodes to that command. -/
theorem decode_of_fields {c : Word} {i : Instr} (hwf : i.wellFormed = true) (hres : reservedBitsClear c = true)
    (hop : fieldOp c = i.op) (hksel : fieldKsel c = i.ksel) (hrn : fieldRn c = i.rn) : decode c = .ok i := by
  rw [decode, if_pos hres, hop]
  cases i with
  | create | destroy | buildTable | debug => exact (if_pos hksel).trans (if_pos hrn)
  | runAuto | runTblAug | runTblFast | runBitAug | runBitFast
  | selftestAuto | selftestTblAug | selftestTblFast | selftestBitAug | selftestBitFast =>
    change kernelForm c _ _ _ _ _ = _
    rw [kernelForm, hksel]
    exact if_pos hrn
  | reflect n =>
    have hn : (fieldRn c).toNat = n := by
      rw [hrn]
      exact Nat.mod_eq_of_lt (Nat.lt_succ_of_le (of_decide_eq_true hwf))
    exact (if_pos hksel).trans (by rw [hn])

/-- R125, R127: the word of a well-formed command decodes to the command. -/
theorem decode_encode {i : Instr} (hwf : i.wellFormed = true) : decode (encode i) = .ok i := by
  obtain ⟨hop, hksel, hrn, hres⟩ := encode_fields i hwf
  exact decode_of_fields hwf hres hop hksel hrn

/-- The opcode table's numbering of a command word is the word's own. -/
theorem decodeTableWord_toNat (c : Word) : decodeTableWord 64 c.toNat = (decode c).toOption := by
  simp [decodeTableWord, Nat.mod_eq_of_lt c.isLt, c.isLt]

/-- Settles O3: the word has the command's fields, and both decoders read those. -/
theorem decodeOfEncodeIsTheCommand : Obligations.DecodeOfEncodeIsTheCommand := by
  intro i hwf
  have hdecode := decode_encode hwf
  exact ⟨hdecode, by rw [decodeTableWord_toNat, hdecode]; rfl⟩

/-- R121, R124: a REFLECT and the one with its operand modulo 128 have the same word. -/
theorem encode_reflect_mod (n : Nat) : encode (.reflect (n % 128)) = encode (.reflect n) := by
  have hrn : BitVec.ofNat 7 (n % 128) = BitVec.ofNat 7 n := BitVec.eq_of_toNat_eq (Nat.mod_mod n 128)
  simp only [encode, Instr.op, Instr.ksel, Instr.rn, hrn]

/-- R124, R125: what a word decodes to is well formed; a REFLECT it decodes to is also the one with the operand
modulo 128, which has the same word. -/
theorem wellFormed_of_decode {c : Word} {i : Instr} (h : decode c = .ok i) : i.wellFormed = true := by
  cases i with
  | reflect n =>
    have hwf : (Instr.reflect (n % 128)).wellFormed = true := decide_eq_true (by omega)
    have hmod : decode c = .ok (.reflect (n % 128)) := by
      rw [← encode_of_decode h, ← encode_reflect_mod, decode_encode hwf]
    rwa [Except.ok.inj (h.symm.trans hmod)]
  | _ => rfl

/-- Settles O4: a word that decodes is made of its three fields, which are its command's. -/
theorem encodeOfDecodeIsTheWord : Obligations.EncodeOfDecodeIsTheWord :=
  fun _ _ h => ⟨encode_of_decode h, wellFormed_of_decode h⟩

/-! ### The words that are rejected -/

section
variable {c : Word}

theorem withoutRn_error_iff {i : Instr} : (∃ e, withoutRn c i = .error e) ↔ fieldRn c ≠ 0 := by
  unfold withoutRn
  split
  case isTrue h => simp [h]
  case isFalse h => exact iff_of_true ⟨_, rfl⟩ h

theorem plainForm_error_iff {i : Instr} : (∃ e, plainForm c i = .error e) ↔ fieldKsel c ≠ 0 ∨ fieldRn c ≠ 0 := by
  unfold plainForm
  split
  case isTrue h => simp [h, withoutRn_error_iff]
  case isFalse h => exact iff_of_true ⟨_, rfl⟩ (.inl h)

theorem kernelForm_error_iff {k₀ k₁ k₂ k₃ k₄ : Instr} :
    (∃ e, kernelForm c k₀ k₁ k₂ k₃ k₄ = .error e) ↔ 4 < (fieldKsel c).toNat ∨ fieldRn c ≠ 0 := by
  unfold kernelForm
  split
  case h_6 => exact iff_of_true ⟨_, rfl⟩ (.inl (by grind))
  all_goals simp [*, withoutRn_error_iff]

/-- R125: a word is rejected exactly when a test of its fields fails. -/
theorem decode_error_iff :
    (∃ e, decode c = .error e) ↔
      reservedBitsClear c = false ∨ (fieldOp c).toNat = 0 ∨ 7 < (fieldOp c).toNat ∨
        (((fieldOp c).toNat = 4 ∨ (fieldOp c).toNat = 6) ∧ 4 < (fieldKsel c).toNat) ∨
        ((fieldOp c).toNat ≠ 4 ∧ (fieldOp c).toNat ≠ 6 ∧ fieldKsel c ≠ 0) ∨
        ((fieldOp c).toNat ≠ 7 ∧ fieldRn c ≠ 0) := by
  unfold decode
  split
  case isFalse hres => exact iff_of_true ⟨_, rfl⟩ (.inl (by simpa using hres))
  case isTrue hres =>
    split
    case h_1 hop | h_2 hop | h_3 hop | h_5 hop => simp [hres, hop, plainForm_error_iff]
    case h_4 hop | h_6 hop => simp [hres, hop, kernelForm_error_iff]
    case h_7 hop =>
      split
      case isTrue h => simp [hres, hop, h]
      case isFalse h => exact iff_of_true ⟨_, rfl⟩ (by simp only [hop]; tauto)
    case h_8 => exact iff_of_true ⟨_, rfl⟩ (by grind)

end

/-- Settles O5: the tests of the fields, in arithmetic; and a word that decodes has its command's fields. -/
theorem decodeRejectsExactlyTheIllegalWords : Obligations.DecodeRejectsExactlyTheIllegalWords := by
  intro c op ksel rn
  refine ⟨?_, fun i h => ?_⟩
  · have hres : reservedBitsClear c = false ↔ c.toNat / 2 ^ 15 ≠ 0 ∨ c.toNat / 128 % 2 ≠ 0 := by
      rw [← Bool.not_eq_true, reservedBitsClear_iff, not_and_or]
    have hksel : fieldKsel c ≠ 0 ↔ ksel ≠ 0 := by rw [Ne, ← BitVec.toNat_inj, fieldKsel_toNat]; rfl
    have hrn : fieldRn c ≠ 0 ↔ rn ≠ 0 := by rw [Ne, ← BitVec.toNat_inj, fieldRn_toNat]; rfl
    rw [decode_error_iff, hres, hksel, hrn, fieldOp_toNat, fieldKsel_toNat, or_assoc]
  · obtain ⟨hop, hksel, hrn, -⟩ := encode_fields i (wellFormed_of_decode h)
    rw [← hop, ← hksel, ← hrn, encode_of_decode h]
    exact ⟨fieldOp_toNat c, fieldKsel_toNat c, fieldRn_toNat c⟩

/-! ### Written-out words -/

/-- R127: the word of a REFLECT, for every operand of RN. -/
theorem encode_reflect {n : Nat} (hn : n ≤ 127) : encode (.reflect n) = BitVec.ofNat 64 (0x7 + (n <<< 8)) := by
  have hword : (BitVec.ofNat 64 (0x7 + (n <<< 8))).toNat = 7 + n * 256 := by
    rw [BitVec.toNat_ofNat, Nat.shiftLeft_eq]
    omega
  refine encode_eq_of_fields ((reservedBitsClear_iff _).2 ?_) (BitVec.eq_of_toNat_eq ?_) (BitVec.eq_of_toNat_eq ?_)
    (BitVec.eq_of_toNat_eq ?_)
  · rw [hword]
    omega
  · rw [fieldOp_toNat, hword]
    exact (show (7 + n * 256) % 16 = 7 by omega)
  · rw [fieldKsel_toNat, hword]
    exact (show (7 + n * 256) / 16 % 8 = 0 by omega)
  · rw [fieldRn_toNat, hword]
    exact (show (7 + n * 256) / 256 % 128 = n % 128 by omega)

/-- Settles O1: the words without an operand are computed, the words of REFLECT read by their fields. -/
theorem encodeGivesTheWordsOfTheTable : Obligations.EncodeGivesTheWordsOfTheTable := by
  refine ⟨rfl, rfl, rfl, rfl, rfl, rfl, rfl, rfl, rfl, rfl, rfl, rfl, rfl, rfl, fun n _ hn => encode_reflect ?_⟩
  omega

/-- Settles O2: each word is the one R127 gives its command. -/
theorem writtenOutWordsDecodeToTheirCommands : Obligations.WrittenOutWordsDecodeToTheirCommands := by
  have decodes {c : Word} {i : Instr} (hword : encode i = c) (hwf : i.wellFormed = true) : decode c = .ok i :=
    hword ▸ decode_encode hwf
  obtain ⟨hcreate, hdestroy, hbuild, hdebug, -, -, -, hrun, -, -, -, hselftest, -, -, hreflect⟩ :=
    encodeGivesTheWordsOfTheTable
  exact ⟨decodes hcreate rfl, decodes hdestroy rfl, decodes hbuild rfl, decodes hrun rfl, decodes hdebug rfl,
    decodes hselftest rfl, decodes (hreflect 8 (by decide) (by decide)) rfl,
    decodes (hreflect 64 (by decide) (by decide)) rfl⟩

/-- Settles O6: the completion reports IllegalCommand, an error without PE_* or NI_* information. -/
theorem illegalCommandChangesNothingElse : Obligations.IllegalCommandChangesNothingElse := by
  intro s e hdecode
  rcases completePending_cases s with ⟨i, hok, -⟩ | ⟨-, -, hend⟩
  · exact nomatch hdecode.symm.trans hok
  · obtain ⟨-, hillegal, -⟩ := raiseError_plain (fieldOp s.pending) s
    exact hend.trans (congrArg Host.Outcome.next hillegal)

/-! ### The poll after a completion -/

section
variable {s t : State}

/-- R343: a completion step ends as a command does, with IllegalCommand where PENDING does not decode. -/
theorem completion_of_completePending (h : completePending s = .next t) : ∃ i, Completion s i t := by
  rcases completePending_cases s with ⟨i, -, e⟩ | ⟨_, -, e⟩
  · exact ⟨i, completion_of_exec (e.symm.trans h)⟩
  · cases e.symm.trans h
    exact ⟨.create, completion_illegalCommand s .create⟩

/-- R306: however a command ends, BUSY is cleared; no way of ending writes the host's program. -/
theorem Completion.not_busy_and_program {i : Instr} (h : Completion s i t) :
    t.status.busy = false ∧ t.program = s.program := by
  cases h <;> exact ⟨rfl, rfl⟩

/-- R343: with no turn given, a pending command completes. -/
theorem step_of_no_turns_busy (hturns : s.turns = []) (hbusy : s.status.busy = true) :
    step s = completePending s := by simp [step, takeTurn, hturns, hbusy]

theorem step_of_no_turns_idle (hturns : s.turns = []) (hbusy : s.status.busy = false) :
    step s = .next (hostTurn s) := by simp [step, takeTurn, hturns, hbusy]

/-- R128: a WAIT that reads BUSY = 0 is over; it has read STATUS. -/
theorem hostTurn_wait_idle {p : List HostOp} (hprogram : s.program = .wait :: p) (hbusy : s.status.busy = false) :
    hostTurn s = setProgram p (hostTransaction readStatusTxn s) := by
  have hread : ¬ (readReg s .status).getLsbD 2 = true := by
    obtain ⟨-, -, hbit, -⟩ := statusWord_bits s.status
    exact Bool.eq_false_iff.1 (hbit.trans hbusy)
  simp only [hostTurn, hprogram, if_neg hread]

end

/-- Settles O24: the first step is the completion, which clears BUSY; the second is the host's poll. -/
theorem waitEndsAfterTheCompletion : Obligations.WaitEndsAfterTheCompletion := by
  intro s p hbusy hturns hprogram
  obtain ⟨t, ht⟩ := completePending_answers_next s
  obtain ⟨_, hend⟩ := completion_of_completePending ht
  obtain ⟨hidle, hkept⟩ := hend.not_busy_and_program
  have hpoll : step t = .next (setProgram p (hostTransaction readStatusTxn t)) := by
    rw [step_of_no_turns_idle ((turns_of_completePending ht).trans hturns) hidle,
      hostTurn_wait_idle (hkept.trans hprogram) hidle]
  exact ⟨t, _, ht, (run_succ_of_step ((step_of_no_turns_busy hturns hbusy).trans ht)).trans (run_succ_of_step hpoll),
    rfl, rfl, hidle⟩

end Sys2Proof.Machine
end

section
/-! SUPPORT. The primitives family: the reflector, the validator, the division steps in arithmetic, the fold and its
inverse, and the table entry as a linear map, each followed by the statements about it (40_primitives.md). -/

namespace Sys2Proof.Machine

/-! ### The reflector -/

/-- R155: only the low `n` bits are read. -/
theorem reflect_and_mask {n : Nat} (hn : n ≤ 64) (x : Nat) : reflect (x &&& mask n) n = reflect x n := by
  apply Nat.eq_of_testBit_eq
  intro i
  rw [testBit_reflect, testBit_reflect, Nat.testBit_and, testBit_mask hn]
  by_cases hi : i < n
  · simp [show n - 1 - i < n by omega]
  · simp [hi]

theorem reflect_mask {n : Nat} (hn : n ≤ 64) : reflect (mask n) n = mask n := by
  apply Nat.eq_of_testBit_eq
  intro i
  rw [testBit_reflect, testBit_mask hn, testBit_mask hn]
  by_cases hi : i < n
  · simp [hi, show n - 1 - i < n by omega]
  · simp [hi]

/-- R155, on the register a reflected word is written to. -/
theorem getLsbD_word_reflect (x : Word) (n : Nat) {i : Nat} (hi : i < 64) :
    (word (reflect x.toNat n)).getLsbD i = (decide (i < n) && x.getLsbD (n - 1 - i)) := by
  rw [word, BitVec.getLsbD_ofNat, testBit_reflect, BitVec.testBit_toNat, decide_eq_true hi, Bool.true_and]

/-- Settles O26: REFLECT ends in one of the two ways of `execReflect_cases`, and the value it writes is read by its
bits. -/
theorem reflectReversesTheLowBits : Obligations.ReflectReversesTheLowBits := by
  intro n s
  rcases execReflect_cases n s with ⟨hpos, hle, hend⟩ | ⟨hout, hend⟩
  · rw [completeWith_eq] at hend
    exact ⟨fun _ _ => ⟨encode_reflect (by omega), _, hend, fun i hi => getLsbD_word_reflect s.reflIn n hi⟩,
      fun h => absurd h (by omega)⟩
  · obtain ⟨-, -, -, -, -, hinvalid⟩ := raiseError_plain opReflect s
    rw [hinvalid] at hend
    exact ⟨fun hpos hle => absurd ⟨hpos, hle⟩ hout, fun _ => hend⟩

/-- Settles O27: the laws of `reflect`, read off its bits. -/
theorem reflectorIsAnXorLinearInvolution : Obligations.ReflectorIsAnXorLinearInvolution := fun n _ hn =>
  ⟨fun _ hx => reflect_reflect hx, fun x => (reflect_and_mask hn x).symm, reflect_zero n, reflect_mask hn,
    fun a b => reflect_xor a b n⟩

/-! ### The validator -/

/-- R153: above width 64 the mask is that of 64, so masking leaves every register value as it is. -/
theorem word_and_mask_of_gt {w : Nat} (hw : 64 < w) (v : Word) : v.toNat &&& mask w = v.toNat := by
  have hmask : mask w = 2 ^ 64 - 1 := if_neg hw.not_ge
  rw [hmask, Nat.and_two_pow_sub_one_of_lt_two_pow v.isLt]

/-- R151, R153: the check of a register value against a width, in arithmetic. -/
theorem word_and_mask_eq_self_iff (w : Nat) (v : Word) : v.toNat &&& mask w = v.toNat ↔ 64 < w ∨ v.toNat < 2 ^ w := by
  rcases Nat.lt_or_ge 64 w with hw | hw
  · simp [word_and_mask_of_gt hw, hw]
  · simp [and_mask_eq_self_iff hw, show ¬ 64 < w by omega]

theorem word_bne_and_mask (w : Nat) (v : Word) :
    (v.toNat != (v.toNat &&& mask w)) = !decide (64 < w ∨ v.toNat < 2 ^ w) := by
  rw [bne, ← decide_eq_decide.2 (word_and_mask_eq_self_iff w v), Bool.beq_comm, beq_eq_decide]

/-- R151: the four checks on the staged record, in arithmetic. -/
theorem stagedViolations_eq (s : State) :
    stagedViolations s =
      { invalidWidth := !decide (1 ≤ cfgWidth s.staged.cfg ∧ cfgWidth s.staged.cfg ≤ 64)
        invalidPoly := !decide (64 < cfgWidth s.staged.cfg ∨ s.staged.poly.toNat < 2 ^ cfgWidth s.staged.cfg)
        invalidInit := !decide (64 < cfgWidth s.staged.cfg ∨ s.staged.init.toNat < 2 ^ cfgWidth s.staged.cfg)
        invalidXorout := !decide (64 < cfgWidth s.staged.cfg ∨ s.staged.xorout.toNat < 2 ^ cfgWidth s.staged.cfg) } := by
  simp only [stagedViolations, validate, word_bne_and_mask, Bool.decide_and]

/-- Settles O29: a record that fails a check takes CREATE to ParameterInvalid, whose PE_* bits are the violations found. -/
theorem createReportsEveryViolationAndBuildsNothing : Obligations.CreateReportsEveryViolationAndBuildsNothing := by
  intro s w fits hempty hinvalid
  rcases execCreate_cases s with ⟨hengine, -⟩ | ⟨-, hvalid, -⟩ | ⟨-, -, hend⟩
  · exact absurd (hempty.symm.trans hengine) (by decide)
  · refine absurd ?_ hinvalid
    simpa [stagedViolations_eq, Violations.none, and_assoc, fits] using hvalid
  · rw [stagedViolations_eq, raiseError_parameterInvalid] at hend
    exact hend

/-! ### The division steps in arithmetic -/

section
variable {w poly r : Nat}

/-- R11: the top bit of a `w`-bit value, in arithmetic. -/
theorem testBit_top (hw : 1 ≤ w) (hr : r < 2 ^ w) : r.testBit (w - 1) = decide (2 ^ (w - 1) ≤ r) := by
  by_cases h : 2 ^ (w - 1) ≤ r
  · rw [decide_eq_true h]
    exact Nat.testBit_of_two_pow_le_and_two_pow_add_one_gt h (by rwa [Nat.sub_add_cancel hw])
  · rw [decide_eq_false h]
    exact Nat.testBit_lt_two_pow (by omega)

theorem shiftLeft_one_and_mask (hw : w ≤ 64) (r : Nat) : (r <<< 1) &&& mask w = 2 * r % 2 ^ w := by
  rw [and_mask hw, Nat.shiftLeft_eq, pow_one, Nat.mul_comm]

theorem shiftLeft_one_or_and_mask (hw : w ≤ 64) (r : Nat) (b : Bool) :
    ((r <<< 1) ||| b.toNat) &&& mask w = (2 * r + b.toNat) % 2 ^ w := by
  rw [and_mask hw, ← Nat.shiftLeft_add_eq_or_of_lt (i := 1) b.toNat_lt, Nat.shiftLeft_eq, pow_one, Nat.mul_comm]

/-- R158: the conditional XOR of the division steps, with the polynomial or nothing as its operand. -/
theorem ite_xor_eq (c : Bool) (x : Nat) : (if c = true then x ^^^ poly else x) = x ^^^ (if c = true then poly else 0) := by
  cases c <;> simp

/-- R158: ZStep in arithmetic. -/
theorem zStep_arith (hw : 1 ≤ w) (hw' : w ≤ 64) (hr : r < 2 ^ w) :
    zStep w poly r = (2 * r % 2 ^ w) ^^^ (if 2 ^ (w - 1) ≤ r then poly else 0) := by
  rw [zStep, ite_xor_eq, shiftLeft_one_and_mask hw', testBit_top hw hr]
  simp only [decide_eq_true_eq]

/-- R158: AStep in arithmetic. -/
theorem aStep_arith (hw : 1 ≤ w) (hw' : w ≤ 64) (hr : r < 2 ^ w) (b : Bool) :
    aStep w poly r b = ((2 * r + b.toNat) % 2 ^ w) ^^^ (if 2 ^ (w - 1) ≤ r then poly else 0) := by
  rw [aStep, ite_xor_eq, shiftLeft_one_or_and_mask hw', testBit_top hw hr]
  simp only [decide_eq_true_eq]

/-- R158: FStep in arithmetic. -/
theorem fStep_arith (hw : 1 ≤ w) (hw' : w ≤ 64) (hr : r < 2 ^ w) (b : Bool) :
    fStep w poly r b = (2 * r % 2 ^ w) ^^^ (if (decide (2 ^ (w - 1) ≤ r) ^^ b) = true then poly else 0) := by
  rw [fStep, ite_xor_eq, shiftLeft_one_and_mask hw', testBit_top hw hr]

theorem aStep_lt (hw : 1 ≤ w) (hw' : w ≤ 64) (hp : poly < 2 ^ w) (r : Nat) (b : Bool) : aStep w poly r b < 2 ^ w := by
  rw [aStep_eq hw hw']
  exact xor_lt (zStep_lt hw' hp r) (b.toNat_lt.trans_le (Nat.le_self_pow (by omega) 2))

theorem fStep_lt (hw : 1 ≤ w) (hw' : w ≤ 64) (hp : poly < 2 ^ w) (r : Nat) (b : Bool) : fStep w poly r b < 2 ^ w := by
  rw [fStep_eq hw hw']
  exact zStep_lt hw' hp _

end

/-- Settles O44: each step in arithmetic, and its bound. -/
theorem divisionStepsShiftAndSubtractThePolynomial : Obligations.DivisionStepsShiftAndSubtractThePolynomial :=
  fun w poly r hw hw' hp hr =>
    ⟨zStep_arith hw hw' hr, aStep_arith hw hw' hr, fStep_arith hw hw' hr, (aStep_false w poly r).symm,
      (fStep_false w poly r).symm, zStep_lt hw' hp r, aStep_lt hw hw' hp r, fStep_lt hw hw' hp r⟩

/-! ### The fold and its inverse, for an odd polynomial -/

/-- A left inverse on a set that a map keeps stays one when both are iterated. -/
theorem leftInvOn_iterate {f g : Nat → Nat} {S : Set Nat} (hmaps : Set.MapsTo f S S) (hinv : Set.LeftInvOn g f S)
    (k : Nat) : Set.LeftInvOn g^[k] f^[k] S := by
  induction k with
  | zero => exact fun _ _ => rfl
  | succ k ih =>
    intro x hx
    rw [Function.iterate_succ_apply' f, Function.iterate_succ_apply g, hinv (hmaps.iterate k hx), ih hx]

section
variable {w poly : Nat}

theorem testBit_zero_of_odd (hodd : poly % 2 = 1) : poly.testBit 0 = true := by simp [Nat.testBit_zero, hodd]

theorem zStep_mapsTo (hw' : w ≤ 64) (hp : poly < 2 ^ w) :
    Set.MapsTo (zStep w poly) { r | r < 2 ^ w } { r | r < 2 ^ w } := fun r _ => zStep_lt hw' hp r

theorem unfoldStep_mapsTo (hw : 1 ≤ w) (hp : poly < 2 ^ w) :
    Set.MapsTo (unfoldStep w poly) { r | r < 2 ^ w } { r | r < 2 ^ w } := fun _ hr => unfoldStep_lt hw hp hr

/-- R162: for an odd polynomial an iteration of Unfold is the inverse of ZStep. -/
theorem invOn_unfoldStep_zStep (hw : 1 ≤ w) (hw' : w ≤ 64) (hp : poly < 2 ^ w) (hodd : poly % 2 = 1) :
    Set.InvOn (unfoldStep w poly) (zStep w poly) { r | r < 2 ^ w } { r | r < 2 ^ w } :=
  ⟨fun _ hr => unfoldStep_zStep hw hw' (testBit_zero_of_odd hodd) hr,
    fun _ hr => zStep_unfoldStep hw hw' (testBit_zero_of_odd hodd) hp hr⟩

theorem unfold_fold (hw : 1 ≤ w) (hw' : w ≤ 64) (hp : poly < 2 ^ w) (hodd : poly % 2 = 1) {v : Nat} (hv : v < 2 ^ w) :
    unfold w poly (fold w poly v) = v :=
  leftInvOn_iterate (zStep_mapsTo hw' hp) (invOn_unfoldStep_zStep hw hw' hp hodd).1 w hv

theorem fold_unfold (hw : 1 ≤ w) (hw' : w ≤ 64) (hp : poly < 2 ^ w) (hodd : poly % 2 = 1) {v : Nat} (hv : v < 2 ^ w) :
    fold w poly (unfold w poly v) = v :=
  leftInvOn_iterate (unfoldStep_mapsTo hw hp) (invOn_unfoldStep_zStep hw hw' hp hodd).2 w hv

end

/-- Settles O45: one iteration of Unfold inverts one ZStep, so `w` of them invert the fold; the non-direct seed is an
Unfold, so its law is that of `fold_unfold`. -/
theorem unfoldInvertsFoldForOddPolynomials : Obligations.UnfoldInvertsFoldForOddPolynomials :=
  fun _ _ hw hw' hp hodd =>
    ⟨(invOn_unfoldStep_zStep hw hw' hp hodd).bijOn (zStep_mapsTo hw' hp) (unfoldStep_mapsTo hw hp),
      fun _ hv => ⟨unfold_fold hw hw' hp hodd hv, fold_unfold hw hw' hp hodd hv, fold_unfold hw hw' hp hodd hv⟩⟩

/-! ### Even polynomials -/

section
variable {w poly : Nat}

/-- R158: the top bit alone is shifted out, and leaves the polynomial. -/
theorem zStep_top (hw : 1 ≤ w) (hw' : w ≤ 64) (poly : Nat) : zStep w poly (2 ^ (w - 1)) = poly := by
  rw [zStep_arith hw hw' (Nat.two_pow_pred_lt_two_pow hw), mul_pow_sub_one (by omega), Nat.mod_self, if_pos le_rfl,
    Nat.zero_xor]

/-- Half of an even polynomial is below the top bit. -/
theorem half_lt_top (hw : 1 ≤ w) (hp : poly < 2 ^ w) : poly / 2 < 2 ^ (w - 1) := by
  have htop : 2 * 2 ^ (w - 1) = 2 ^ w := mul_pow_sub_one (by omega) 2
  omega

/-- R163: half of an even polynomial is a second value that ZStep takes to the polynomial. -/
theorem zStep_half (hw : 1 ≤ w) (hw' : w ≤ 64) (hp : poly < 2 ^ w) (heven : poly % 2 = 0) :
    zStep w poly (poly / 2) = poly := by
  rw [zStep_of_lt hw hw' (half_lt_top hw hp), Nat.shiftLeft_eq, pow_one]
  omega

/-- R163: an even polynomial leaves bit 0 of every ZStep clear. -/
theorem testBit_zero_zStep (heven : poly % 2 = 0) (r : Nat) : (zStep w poly r).testBit 0 = false := by
  have hpoly : poly.testBit 0 = false := by simp [Nat.testBit_zero, heven]
  rw [zStep, ite_xor_eq, Nat.testBit_xor, Nat.testBit_and, Nat.testBit_shiftLeft]
  split <;> simp [hpoly]

/-- R163: with an even polynomial no fold is odd. -/
theorem fold_ne_one (hw : 1 ≤ w) (heven : poly % 2 = 0) (u : Nat) : fold w poly u ≠ 1 := by
  obtain ⟨k, rfl⟩ : ∃ k, w = k + 1 := ⟨w - 1, by omega⟩
  intro h
  rw [fold, Function.iterate_succ_apply'] at h
  have hbit := testBit_zero_zStep (w := k + 1) heven ((zStep (k + 1) poly)^[k] u)
  rw [h] at hbit
  exact absurd hbit (by decide)

end

/-- Settles O46: ZStep takes the top bit and half the polynomial to the same value, and no fold is 1. -/
theorem evenPolynomialsHaveSeedsWithNoNonDirectForm : Obligations.EvenPolynomialsHaveSeedsWithNoNonDirectForm := by
  intro w poly hw hw' hp heven
  have hhalf := half_lt_top hw hp
  have htop : 2 ^ (w - 1) < 2 ^ w := Nat.two_pow_pred_lt_two_pow hw
  refine ⟨fun hinj => hhalf.ne' ?_, 1, Nat.one_lt_two_pow (by omega), fun u _ => fold_ne_one hw heven u⟩
  exact hinj htop (hhalf.trans htop) ((zStep_top hw hw' poly).trans (zStep_half hw hw' hp heven).symm)

/-! ### The table -/

section
variable {w poly : Nat}

/-- R170: the eight division steps on an input byte at the top of the register. -/
def byteSteps (w poly c : Nat) : Nat := (zStep w poly)^[8] ((c <<< (w - 8)) &&& mask w)

theorem byteSteps_lt (hw' : w ≤ 64) (hp : poly < 2 ^ w) (c : Nat) : byteSteps w poly c < 2 ^ w :=
  iterate_zStep_lt hw' hp (and_mask_lt hw' _) 8

theorem byteSteps_xor (w poly a b : Nat) : byteSteps w poly (a ^^^ b) = byteSteps w poly a ^^^ byteSteps w poly b := by
  rw [byteSteps, Nat.shiftLeft_xor_distrib, Nat.and_xor_distrib_right, iterate_zStep_xor]
  rfl

theorem byteSteps_zero (w poly : Nat) : byteSteps w poly 0 = 0 := by
  rw [byteSteps, Nat.zero_shiftLeft, Nat.zero_and, iterate_zStep_zero]

/-- R173: seven steps take the byte 1 to the top bit, and the eighth leaves the polynomial. -/
theorem byteSteps_one (hw : 8 ≤ w) (hw' : w ≤ 64) : byteSteps w poly 1 = poly := by
  have hin : (1 <<< (w - 8)) &&& mask w = 2 ^ (w - 8) := by
    rw [Nat.one_shiftLeft, and_mask_of_lt hw' (Nat.pow_lt_pow_right (by omega) (by omega))]
  have hseven : (zStep w poly)^[7] (2 ^ (w - 8)) = 2 ^ (w - 1) := by
    rw [iterate_zStep_of_lt (by omega) hw' (Nat.pow_lt_pow_right (by omega) (by omega)), Nat.shiftLeft_eq, ← pow_add]
    congr 1
    omega
  rw [byteSteps, hin, Function.iterate_succ_apply', hseven, zStep_top (by omega) hw']

/-- R170: an entry of an unreflected table. -/
theorem tableEntry_false (hw' : w ≤ 64) (hp : poly < 2 ^ w) (i : Nat) : tableEntry w poly false i = byteSteps w poly i :=
  and_mask_of_lt hw' (byteSteps_lt hw' hp i)

/-- R170: an entry of a reflected table. -/
theorem tableEntry_true (hw' : w ≤ 64) (i : Nat) :
    tableEntry w poly true i = reflect (byteSteps w poly (reflect i 8)) w :=
  and_mask_of_lt hw' (reflect_lt _ w)

theorem tableEntry_zero (hw' : w ≤ 64) (hp : poly < 2 ^ w) (refin : Bool) : tableEntry w poly refin 0 = 0 := by
  cases refin
  · rw [tableEntry_false hw' hp, byteSteps_zero]
  · rw [tableEntry_true hw', reflect_zero, byteSteps_zero, reflect_zero]

/-- R173: the table entry is linear over XOR. -/
theorem tableEntry_xor (hw' : w ≤ 64) (hp : poly < 2 ^ w) (refin : Bool) (i j : Nat) :
    tableEntry w poly refin (i ^^^ j) = tableEntry w poly refin i ^^^ tableEntry w poly refin j := by
  cases refin
  · simp only [tableEntry_false hw' hp, byteSteps_xor]
  · simp only [tableEntry_true hw', reflect_xor, byteSteps_xor]

end

/-- Settles O47: the entry is a composition of linear maps, and the byte 1, or 0x80 reflected, leaves the polynomial. -/
theorem tableEntriesAreLinearInTheByte : Obligations.TableEntriesAreLinearInTheByte := by
  intro w poly hw hw' hp
  have hbyte : reflect 0x80 8 = 1 := by decide
  refine ⟨tableEntry_zero hw' hp, fun refin i j _ _ => tableEntry_xor hw' hp refin i j, ?_, ?_⟩
  · rw [tableEntry_false hw' hp, byteSteps_one hw hw']
  · rw [tableEntry_true hw', hbyte, byteSteps_one hw hw']

end Sys2Proof.Machine
end

section
/-! SUPPORT. The kernels family: what a RUN ends in as a function of what it reads, the frame of every command, and the
statements about both (R198, R200 to R209, and the frames of each command's rule). -/

namespace Sys2Proof.Machine

/-! ### What a RUN ends in -/

/-- R202: the error a RUN raises or the value it produces, from what its checks and its kernel read. Tied to the model
by `runCommon_eq`. -/
def runOutcome (k : KernelSel) (s : State) : Except CmdError Nat :=
  if (!s.status.engine || !bufValid s) = true then .error (.nullInput (!s.status.engine) (!bufValid s))
  else if widthNotAligned (engineOf s) (resolve (engineOf s) k) = true then .error .widthNotAligned
  else if bufferOutOfRange s = true then .error .bufferRange
  else .ok (runKernel (resolve (engineOf s) k) (engineOf s) (message s))

/-- R15, R202: how a RUN ends. -/
def endRun : Except CmdError Nat → State → State
  | .error e, s => raiseError opRun e s
  | .ok v, s => completeWith opRun v s

/-- R123: the RUN form of a kernel select value. -/
def runForm : KernelSel → Instr
  | .auto => .runAuto
  | .tblAug => .runTblAug
  | .tblFast => .runTblFast
  | .bitAug => .runBitAug
  | .bitFast => .runBitFast

section
variable {k : KernelSel} {s : State}

theorem runCommon_eq (k : KernelSel) (s : State) : runCommon k s = .next (endRun (runOutcome k s) s) := by
  unfold runCommon runOutcome
  split
  · rfl
  · split
    · rfl
    · split <;> rfl

theorem exec_runForm (k : KernelSel) (s : State) : exec (runForm k) s = .next (endRun (runOutcome k s) s) := by
  rw [← runCommon_eq]
  cases k <;> rfl

theorem exists_runForm {i : Instr} (h : i ∈ [.runAuto, .runTblAug, .runTblFast, .runBitAug, .runBitFast]) :
    ∃ k, i = runForm k := by
  simp only [List.mem_cons, List.not_mem_nil, or_false] at h
  obtain rfl | rfl | rfl | rfl | rfl := h
  exacts [⟨.auto, rfl⟩, ⟨.tblAug, rfl⟩, ⟨.tblFast, rfl⟩, ⟨.bitAug, rfl⟩, ⟨.bitFast, rfl⟩]

/-- R200, R201: AUTO resolves to a table kernel on an aligned width alone, so only an explicit one meets an unaligned
width. -/
theorem widthNotAligned_resolve (E : Engine) (k : KernelSel) :
    widthNotAligned E (resolve E k) = true ↔
      (runForm k = .runTblAug ∨ runForm k = .runTblFast) ∧ E.width % 8 ≠ 0 := by
  cases k with
  | auto =>
    by_cases hw : E.width % 8 = 0
    · simp [widthNotAligned, hw]
    · cases hfast : E.fast <;> simp [widthNotAligned, resolve, Kernel.isTable, runForm, hw, hfast]
  | tblAug | tblFast | bitAug | bitFast => simp [widthNotAligned, resolve, Kernel.isTable, runForm]

theorem runOutcome_nullInput (hnull : (s.status.engine && bufValid s) = false) :
    runOutcome k s = .error (.nullInput (!s.status.engine) (!bufValid s)) := by
  rw [← Bool.not_eq_true', Bool.not_and] at hnull
  exact if_pos hnull

theorem runOutcome_widthNotAligned (hengine : s.status.engine = true) (hvalid : bufValid s = true)
    (hwidth : widthNotAligned (engineOf s) (resolve (engineOf s) k) = true) :
    runOutcome k s = .error .widthNotAligned := by simp [runOutcome, hengine, hvalid, hwidth]

theorem runOutcome_bufferRange (hengine : s.status.engine = true) (hvalid : bufValid s = true)
    (hwidth : widthNotAligned (engineOf s) (resolve (engineOf s) k) = false) (hrange : bufferOutOfRange s = true) :
    runOutcome k s = .error .bufferRange := by simp [runOutcome, hengine, hvalid, hwidth, hrange]

theorem runOutcome_value (hengine : s.status.engine = true) (hvalid : bufValid s = true)
    (hwidth : widthNotAligned (engineOf s) (resolve (engineOf s) k) = false) (hrange : bufferOutOfRange s = false) :
    runOutcome k s = .ok (runKernel (resolve (engineOf s) k) (engineOf s) (message s)) := by
  simp [runOutcome, hengine, hvalid, hwidth, hrange]

/-- R203: a value a RUN produces is that of its kernel. -/
theorem eq_of_runOutcome_ok {v : Nat} (h : runOutcome k s = .ok v) :
    v = runKernel (resolve (engineOf s) k) (engineOf s) (message s) := by
  unfold runOutcome at h
  split_ifs at h
  cases h
  rfl

/-- R198: a RUN leaves everything a RUN reads as it was. -/
theorem runOutcome_endRun (o : Except CmdError Nat) (k : KernelSel) (s : State) :
    runOutcome k (endRun o s) = runOutcome k s := by cases o <;> rfl

/-- R202: a RUN without an error produced a value. -/
theorem runOutcome_ok_of_not_err (h : (endRun (runOutcome k s) s).status.err = false) :
    runOutcome k s = .ok (runKernel (resolve (engineOf s) k) (engineOf s) (message s)) := by
  cases ho : runOutcome k s with
  | error e =>
    rw [ho] at h
    exact absurd h (by simp [endRun])
  | ok v => rw [eq_of_runOutcome_ok ho]

end

theorem bufferOutOfRange_eq_false_iff {s : State} :
    bufferOutOfRange s = false ↔ s.bufAddr.toNat + s.bufLen.toNat ≤ s.bufBytes := by simp [bufferOutOfRange]

/-- Settles O35: the outcome of a RUN whose checks pass, with its select resolved. -/
theorem runWritesTheKernelValueToResult : Obligations.RunWritesTheKernelValueToResult := by
  intro s hengine hvalid hrange E msg ends
  have run (k : KernelSel) (hwidth : ¬ ((runForm k = .runTblAug ∨ runForm k = .runTblFast) ∧ E.width % 8 ≠ 0)) :
      exec (runForm k) s = .next (ends (runKernel (resolve E k) E msg)) := by
    rw [exec_runForm, runOutcome_value hengine hvalid (Bool.eq_false_iff.2 (mt (widthNotAligned_resolve E k).1 hwidth))
      (bufferOutOfRange_eq_false_iff.2 hrange)]
    rfl
  refine ⟨run .bitAug (by simp [runForm]), run .bitFast (by simp [runForm]), fun hw => ⟨run .tblAug (by simp [hw]),
    run .tblFast (by simp [hw]), ?_⟩, fun hw => ?_⟩
  · have h := run .auto (by simp [runForm])
    rw [show resolve E .auto = if E.fast then .tblFast else .tblAug from if_pos hw, apply_ite (runKernel · E msg)] at h
    exact h
  · have h := run .auto (by simp [runForm])
    rw [show resolve E .auto = if E.fast then .bitFast else .bitAug from if_neg hw, apply_ite (runKernel · E msg)] at h
    exact h

/-- Settles O36: each error outcome of a RUN under the checks before it. -/
theorem runReportsTheFirstFailingCheck : Obligations.RunReportsTheFirstFailingCheck := by
  intro s i hi E valid isTable
  obtain ⟨k, rfl⟩ := exists_runForm hi
  rw [exec_runForm]
  have hunaligned := widthNotAligned_resolve E k
  refine ⟨fun hnull => ?_, fun hengine hvalid htable hw => ?_, fun hengine hvalid haligned hrange => ?_⟩
  · rw [runOutcome_nullInput hnull]
    rfl
  · rw [runOutcome_widthNotAligned hengine hvalid (hunaligned.2 ⟨of_decide_eq_true htable, hw⟩)]
    rfl
  · have hwidth : widthNotAligned E (resolve E k) = false :=
      Bool.eq_false_iff.2 fun h => (hunaligned.1 h).2 (haligned (decide_eq_true (hunaligned.1 h).1))
    rw [runOutcome_bufferRange hengine hvalid hwidth (decide_eq_true hrange)]
    rfl

/-- Settles O37: a RUN's value is its kernel's on the Engine and the message, and its outcome is the same after it. -/
theorem repeatedRunGivesTheSameResult : Obligations.RepeatedRunGivesTheSameResult := by
  intro s t i hi hrun
  obtain ⟨k, rfl⟩ := exists_runForm hi
  rw [exec_runForm] at hrun
  cases hrun
  refine ⟨fun s' t' hrun' hE hmsg hok hok' => ?_, ⟨_, exec_runForm k _, ?_⟩, ?_⟩
  · rw [exec_runForm] at hrun'
    cases hrun'
    rw [runOutcome_ok_of_not_err hok, runOutcome_ok_of_not_err hok', hE, hmsg]
    rfl
  · rw [runOutcome_endRun]
    cases runOutcome k s <;> exact ⟨rfl, rfl⟩
  · cases runOutcome k s <;> exact ⟨rfl, rfl, rfl⟩

/-! ### The frame of every command -/

section
variable {s t : State} {i : Instr}

/-- R236, R240, R307: the Engine registers, ENGINE, the table and TABLE_BUILT are those of before, but for CREATE and
DESTROY, and for BUILD_TABLE, which leaves the first two. -/
theorem Completion.sameEngine (h : Completion s i t) :
    SameEngine s t ∨ i = .create ∨ i = .destroy ∨
      (i = .buildTable ∧ t.eng = s.eng ∧ t.status.engine = s.status.engine) := by
  cases h with
  | created => exact .inr (.inl rfl)
  | released => exact .inr (.inr (.inl rfl))
  | rebuilt => exact .inr (.inr (.inr ⟨rfl, rfl, rfl⟩))
  | raised | nothingHeld | tableExists | produced | agreed | disagreed | matched | mismatched =>
    exact .inl ⟨rfl, rfl, rfl, rfl⟩

/-- R44: the commands of the Engine's life write no RESULT. -/
theorem Completion.result_of_lifecycle (h : Completion s i t) (hi : i = .create ∨ i = .destroy ∨ i = .buildTable) :
    t.result = s.result := by
  have hop : i.op ∉ [opRun, opReflect, opSelftest] := by
    rcases hi with rfl | rfl | rfl <;> decide
  cases h with
  | raised | created | released | nothingHeld | tableExists | rebuilt | disagreed => rfl
  | produced hop' hmem => exact absurd (List.mem_append_left [opSelftest] (hop' ▸ hmem)) hop
  | agreed => simp at hi
  | matched hop' | mismatched hop' => exact absurd (by simp [hop']) hop

/-- R45: only DEBUG writes the DBG registers. -/
theorem Completion.dbg_of_ne_debug (h : Completion s i t) (hi : i ≠ .debug) : t.dbg = s.dbg := by
  cases h with
  | agreed | disagreed => exact absurd rfl hi
  | raised | created | released | nothingHeld | tableExists | rebuilt | produced | matched | mismatched => rfl

end

/-- Settles O40: the ways a command ends, each against what it leaves; no command stores to the message buffer. -/
theorem commandsChangeOnlyWhatTheirRulesName : Obligations.CommandsChangeOnlyWhatTheirRulesName := by
  intro i s t hexec
  have h := completion_of_exec hexec
  refine ⟨?_, fun hc hd => ?_, fun hc hd hb => ?_, h.result_of_lifecycle, h.dbg_of_ne_debug⟩
  · cases h <;> exact ⟨rfl, rfl, rfl, rfl, rfl, rfl, rfl, rfl, rfl, rfl, rfl, fun _ => rfl⟩
  · rcases h.sameEngine with hsame | hi | hi | ⟨-, heng, hengine⟩
    exacts [⟨hsame.eng, hsame.engine⟩, absurd hi hc, absurd hi hd, ⟨heng, hengine⟩]
  · rcases h.sameEngine with hsame | hi | hi | ⟨hi, -⟩
    exacts [⟨hsame.table, hsame.built⟩, absurd hi hc, absurd hi hd, absurd hi hb]

end Sys2Proof.Machine
end

section
/-! SUPPORT. The kernels family: a table kernel's register as the bit-by-bit register of its family, byte by byte, and
the laws of the kernels (R185 to R196). -/

namespace Sys2Proof.Machine

/-! ### Bytes of the register -/

section
variable {w : Nat}

theorem slice_xor (a b hi lo : Nat) : slice (a ^^^ b) hi lo = slice a hi lo ^^^ slice b hi lo := by
  rw [slice, Nat.shiftRight_xor_distrib, Nat.and_xor_distrib_right]
  rfl

theorem slice_bottom_lt (r : Nat) : slice r 7 0 < 256 := and_mask_lt (w := 8) (by omega) _

theorem slice_bottom_of_lt {c : Nat} (hc : c < 256) : slice c 7 0 = c := and_mask_of_lt (w := 8) (by omega) hc

/-- The top byte of a register. -/
theorem slice_top (hw : 8 ≤ w) (r : Nat) : slice r (w - 1) (w - 8) = (r >>> (w - 8)) &&& mask 8 := by
  rw [slice, show w - 1 - (w - 8) + 1 = 8 by omega]

theorem slice_top_lt (hw : 8 ≤ w) (r : Nat) : slice r (w - 1) (w - 8) < 256 := by
  rw [slice_top hw]
  exact and_mask_lt (w := 8) (by omega) _

theorem slice_top_of_lt (hw : 8 ≤ w) {r : Nat} (hr : r < 2 ^ w) : slice r (w - 1) (w - 8) = r >>> (w - 8) := by
  rw [slice_top hw]
  refine and_mask_of_lt (by omega) ?_
  rw [Nat.shiftRight_eq_div_pow]
  exact Nat.div_lt_of_lt_mul (by rwa [← pow_add, Nat.sub_add_cancel hw])

theorem slice_top_shiftLeft (hw : 8 ≤ w) {c : Nat} (hc : c < 256) : slice (c <<< (w - 8)) (w - 1) (w - 8) = c := by
  rw [slice_top hw, Nat.shiftLeft_shiftRight, and_mask_of_lt (w := 8) (by omega) hc]

theorem byte_shiftLeft_lt (hw : 8 ≤ w) {c : Nat} (hc : c < 256) : c <<< (w - 8) < 2 ^ w := by
  calc c <<< (w - 8) = c * 2 ^ (w - 8) := Nat.shiftLeft_eq _ _
    _ < 2 ^ 8 * 2 ^ (w - 8) := Nat.mul_lt_mul_of_pos_right hc (Nat.two_pow_pos _)
    _ = 2 ^ w := by rw [← pow_add, Nat.add_sub_cancel' hw]

/-- A byte at the top of the register is shifted out whole. -/
theorem byte_shiftLeft_shiftLeft_and_mask (hw : 8 ≤ w) (hw' : w ≤ 64) (c : Nat) :
    ((c <<< (w - 8)) <<< 8) &&& mask w = 0 := by
  rw [← Nat.shiftLeft_add, Nat.sub_add_cancel hw, and_mask hw', Nat.shiftLeft_eq, Nat.mul_mod_left]

/-- R155: a byte at the top of the register is reflected to its bottom. -/
theorem reflect_byte_shiftLeft (hw : 8 ≤ w) (c : Nat) : reflect (c <<< (w - 8)) w = reflect c 8 := by
  apply Nat.eq_of_testBit_eq
  intro i
  rw [testBit_reflect, testBit_reflect, Nat.testBit_shiftLeft]
  by_cases hi : i < 8
  · simp [hi, show i < w by omega, show w - 8 ≤ w - 1 - i by omega, show w - 1 - i - (w - 8) = 7 - i by omega]
  · by_cases hi' : i < w
    · simp [hi, show ¬ w - 8 ≤ w - 1 - i by omega]
    · simp [hi, hi']

/-- R155: a shift up is a shift down of the reflected register. -/
theorem reflect_shiftLeft_and_mask (hw' : w ≤ 64) (y : Nat) :
    reflect ((y <<< 8) &&& mask w) w = reflect y w >>> 8 := by
  apply Nat.eq_of_testBit_eq
  intro i
  rw [reflect_and_mask hw', testBit_reflect, Nat.testBit_shiftLeft, Nat.testBit_shiftRight, testBit_reflect]
  by_cases hi : 8 + i < w
  · simp [hi, show i < w by omega, show 8 ≤ w - 1 - i by omega, show w - 1 - i - 8 = w - 1 - (8 + i) by omega]
  · by_cases hi' : i < w
    · simp [hi, show ¬ 8 ≤ w - 1 - i by omega]
    · simp [hi, hi']

/-- R155: the reflected top byte is the bottom byte of the reflected register. -/
theorem reflect_slice_top (hw : 8 ≤ w) (y : Nat) : reflect (slice y (w - 1) (w - 8)) 8 = slice (reflect y w) 7 0 := by
  rw [slice_top hw, reflect_and_mask (by omega)]
  apply Nat.eq_of_testBit_eq
  intro i
  rw [testBit_reflect, Nat.testBit_shiftRight, slice, Nat.testBit_and, testBit_mask (by omega), Nat.testBit_shiftRight,
    testBit_reflect]
  by_cases hi : i < 8
  · simp [hi, show i < w by omega, show w - 8 + (7 - i) = w - 1 - i by omega]
  · simp [hi]

/-- An input byte under an or is an input byte under a XOR where the bits below are clear. -/
theorem shiftLeft_or_and_mask (hw : 8 ≤ w) (hw' : w ≤ 64) (r : Nat) {c : Nat} (hc : c < 256) :
    ((r <<< 8) ||| c) &&& mask w = ((r <<< 8) &&& mask w) ^^^ c := by
  apply Nat.eq_of_testBit_eq
  intro i
  rw [Nat.testBit_and, Nat.testBit_or, Nat.testBit_xor, Nat.testBit_and, testBit_mask hw', Nat.testBit_shiftLeft]
  by_cases hi : i < 8
  · simp [show ¬ 8 ≤ i by omega, show i < w by omega]
  · simp [testBit_of_lt (w := 8) hc (by omega : 8 ≤ i)]

/-- The same at the top of a reflected register, shifted down. -/
theorem shiftRight_or_byte (hw : 8 ≤ w) {r : Nat} (hr : r < 2 ^ w) (c : Nat) :
    (r >>> 8) ||| (c <<< (w - 8)) = (r >>> 8) ^^^ (c <<< (w - 8)) := by
  apply Nat.eq_of_testBit_eq
  intro i
  rw [Nat.testBit_or, Nat.testBit_xor, Nat.testBit_shiftRight, Nat.testBit_shiftLeft]
  by_cases hi : w - 8 ≤ i
  · simp [testBit_of_lt hr (by omega : w ≤ 8 + i)]
  · simp [hi]

end

/-! ### One byte of the table kernels -/

section
variable {E : Engine} {r : Nat}

theorem inputByte_lt (refin : Bool) (m : Byte) : inputByte refin m < 256 := by
  cases refin
  · exact m.isLt
  · exact reflect_lt _ 8

theorem tableSeed_xor (E : Engine) (a b : Nat) : tableSeed E (a ^^^ b) = tableSeed E a ^^^ tableSeed E b := by
  unfold tableSeed
  split
  · exact reflect_xor a b E.width
  · rfl

/-- R190, R191: where a table kernel keeps an input byte that the bit-by-bit kernel has at the bottom. -/
theorem tableSeed_inputByte (hw : 8 ≤ E.width) (m : Byte) :
    tableSeed E (inputByte E.refin m) = if E.refin then m.toNat <<< (E.width - 8) else m.toNat := by
  cases hrefin : E.refin
  · simp [tableSeed, inputByte, hrefin]
  · simp only [tableSeed, inputByte, hrefin, if_true]
    rw [← reflect_byte_shiftLeft hw, reflect_reflect (byte_shiftLeft_lt hw m.isLt)]

/-- R190, R191: where a table kernel keeps an input byte that the bit-by-bit kernel has at the top. -/
theorem tableSeed_inputByte_shiftLeft (hw : 8 ≤ E.width) (m : Byte) :
    tableSeed E (inputByte E.refin m <<< (E.width - 8)) =
      if E.refin then m.toNat else m.toNat <<< (E.width - 8) := by
  cases hrefin : E.refin
  · simp [tableSeed, inputByte, hrefin]
  · simp only [tableSeed, inputByte, hrefin, if_true]
    rw [reflect_byte_shiftLeft hw, reflect_reflect (n := 8) m.isLt]

/-- R191: the byte of a fast table step could as well be XORed into the register first. -/
theorem tblFastStep_eq_xor (hw : 8 ≤ E.width) (hw' : E.width ≤ 64) (r : Nat) (m : Byte) :
    tblFastStep E r m = tblFastStep E (r ^^^ tableSeed E (inputByte E.refin m <<< (E.width - 8))) 0 := by
  have hm : m.toNat < 256 := m.isLt
  rw [tableSeed_inputByte_shiftLeft hw]
  cases hrefin : E.refin
  · simp [tblFastStep, hrefin, slice_xor, slice_top_shiftLeft hw hm, Nat.shiftLeft_xor_distrib,
      Nat.and_xor_distrib_right, byte_shiftLeft_shiftLeft_and_mask hw hw']
  · have hout : m.toNat >>> 8 = 0 := Nat.shiftRight_eq_zero _ _ hm
    simp [tblFastStep, hrefin, slice_xor, slice_bottom_of_lt hm, Nat.shiftRight_xor_distrib, hout]

/-- R190: the byte of an augmented table step could as well be XORed into the register afterwards. -/
theorem tblAugStep_eq_xor (hw : 8 ≤ E.width) (hw' : E.width ≤ 64) (hr : r < 2 ^ E.width) (m : Byte) :
    tblAugStep E r m = tblFastStep E r 0 ^^^ tableSeed E (inputByte E.refin m) := by
  rw [tableSeed_inputByte hw]
  cases hrefin : E.refin
  · simp [tblAugStep, tblFastStep, hrefin, shiftLeft_or_and_mask hw hw' _ m.isLt, Nat.xor_assoc, Nat.xor_comm m.toNat]
  · simp [tblAugStep, tblFastStep, hrefin, shiftRight_or_byte hw hr, Nat.xor_assoc,
      Nat.xor_comm (m.toNat <<< (E.width - 8))]

theorem tableAt_eq (htable : EngineTableRight E) {t : Nat} (ht : t < 256) :
    tableAt E t = tableEntry E.width E.poly E.refin t := by
  rw [tableAt, htable]
  exact congrArg _ (Nat.mod_eq_of_lt ht)

/-- R170, R192: eight ZSteps are a shift and the entry of the top byte. -/
theorem iterate_zStep_eq_tableEntry {w poly : Nat} (hw : 8 ≤ w) (hw' : w ≤ 64) (hp : poly < 2 ^ w) (hr : r < 2 ^ w) :
    (zStep w poly)^[8] r = ((r <<< 8) &&& mask w) ^^^ tableEntry w poly false (slice r (w - 1) (w - 8)) := by
  rw [iterate_zStep_eight hw hw', tableEntry_false hw' hp, byteSteps,
    and_mask_of_lt hw' (byte_shiftLeft_lt hw (slice_top_lt hw r)), slice_top_of_lt hw hr]

theorem reflect_tableEntry {w poly : Nat} (hw' : w ≤ 64) (hp : poly < 2 ^ w) {t : Nat} (ht : t < 256) :
    reflect (tableEntry w poly false t) w = tableEntry w poly true (reflect t 8) := by
  rw [tableEntry_false hw' hp, tableEntry_true hw', reflect_reflect (n := 8) ht]

/-- R192: a table step without input is eight ZSteps, in either direction of the register. -/
theorem tblFastStep_zero_tableSeed (hE : EngineSound E) (hw : 8 ≤ E.width) (htable : EngineTableRight E)
    (hr : r < 2 ^ E.width) : tblFastStep E (tableSeed E r) 0 = tableSeed E ((zStep E.width E.poly)^[8] r) := by
  have hw' := hE.width_le
  have hp := hE.poly_lt
  rw [iterate_zStep_eq_tableEntry hw hw' hp hr, tableSeed_xor]
  cases hrefin : E.refin
  · simp [tblFastStep, tableSeed, hrefin, tableAt_eq htable (slice_top_lt hw r)]
  · simp [tblFastStep, tableSeed, hrefin, tableAt_eq htable (slice_bottom_lt _), reflect_shiftLeft_and_mask hw',
      reflect_tableEntry hw' hp (slice_top_lt hw r), reflect_slice_top hw]

/-- R192, one byte of the fast family. -/
theorem tblFastStep_tableSeed (hE : EngineSound E) (hw : 8 ≤ E.width) (htable : EngineTableRight E)
    (hr : r < 2 ^ E.width) (m : Byte) :
    tblFastStep E (tableSeed E r) m = tableSeed E (eightBits (fStep E.width E.poly) r (inputByte E.refin m)) := by
  have hm := inputByte_lt E.refin m
  rw [tblFastStep_eq_xor hw hE.width_le, ← tableSeed_xor,
    tblFastStep_zero_tableSeed hE hw htable (xor_lt hr (byte_shiftLeft_lt hw hm)),
    eightBits_fStep hw hE.width_le _ _ hm]

theorem tableSeed_lt (hr : r < 2 ^ E.width) : tableSeed E r < 2 ^ E.width := by
  unfold tableSeed
  split
  · exact reflect_lt _ _
  · exact hr

/-- R192, one byte of the augmented family. -/
theorem tblAugStep_tableSeed (hE : EngineSound E) (hw : 8 ≤ E.width) (htable : EngineTableRight E)
    (hr : r < 2 ^ E.width) (m : Byte) :
    tblAugStep E (tableSeed E r) m = tableSeed E (eightBits (aStep E.width E.poly) r (inputByte E.refin m)) := by
  rw [tblAugStep_eq_xor hw hE.width_le (tableSeed_lt hr), tblFastStep_zero_tableSeed hE hw htable hr, ← tableSeed_xor,
    eightBits_aStep hw hE.width_le _ _ (inputByte_lt E.refin m)]

/-! ### The table kernels on a message -/

theorem eightBits_fStep_lt (hE : EngineSound E) (r c : Nat) : eightBits (fStep E.width E.poly) r c < 2 ^ E.width :=
  fStep_lt hE.width_pos hE.width_le hE.poly_lt _ _

theorem eightBits_aStep_lt (hE : EngineSound E) (r c : Nat) : eightBits (aStep E.width E.poly) r c < 2 ^ E.width :=
  aStep_lt hE.width_pos hE.width_le hE.poly_lt _ _

/-- A table kernel's register is the bit-by-bit register of its family as the table kernel keeps it, and fits the
width. -/
def TableRegister (E : Engine) (R r : Nat) : Prop := R = tableSeed E r ∧ r < 2 ^ E.width

/-- R192: the registers of the fast family after a message. -/
theorem tableRegister_fast (hE : EngineSound E) (hw : 8 ≤ E.width) (htable : EngineTableRight E) (hr : r < 2 ^ E.width)
    (msg : List Byte) : TableRegister E (msg.foldl (tblFastStep E) (tableSeed E r)) (bitFastRegister E r msg) := by
  refine List.foldl_rel ⟨rfl, hr⟩ ?_
  rintro m - _ r ⟨rfl, hr⟩
  exact ⟨tblFastStep_tableSeed hE hw htable hr m, eightBits_fStep_lt hE r _⟩

/-- R192: the registers of the augmented family after a message. -/
theorem tableRegister_aug (hE : EngineSound E) (hw : 8 ≤ E.width) (htable : EngineTableRight E) (hr : r < 2 ^ E.width)
    (msg : List Byte) : TableRegister E (msg.foldl (tblAugStep E) (tableSeed E r)) (bitAugRegister E r msg) := by
  refine List.foldl_rel ⟨rfl, hr⟩ ?_
  rintro m - _ r ⟨rfl, hr⟩
  exact ⟨tblAugStep_tableSeed hE hw htable hr m, eightBits_aStep_lt hE r _⟩

/-- R188, R190: `k` zero bytes of augmentation are `8 k` zero bits. -/
theorem bitAugRegister_replicate_zero (hE : EngineSound E) (hw : 8 ≤ E.width) (r k : Nat) :
    bitAugRegister E r (List.replicate k 0) = (zStep E.width E.poly)^[8 * k] r := by
  have hbyte : inputByte E.refin 0 = 0 := by cases E.refin <;> rfl
  induction k generalizing r with
  | zero => rfl
  | succ k ih =>
    rw [List.replicate_succ, Nat.mul_succ, Function.iterate_add_apply, ← ih, bitAugRegister, List.foldl_cons, hbyte,
      eightBits_aStep hw hE.width_le _ _ (by omega), Nat.xor_zero]
    rfl

/-- R190: the augmented register after the message and the `w / 8` zero bytes. -/
theorem bitAugRegister_append_zeros (hE : EngineSound E) (hw : E.width % 8 = 0) (r : Nat) (msg : List Byte) :
    bitAugRegister E r (msg ++ List.replicate (E.width / 8) 0) =
      (zStep E.width E.poly)^[E.width] (bitAugRegister E r msg) := by
  have hpos := hE.width_pos
  have hzeros := bitAugRegister_replicate_zero hE (by omega) (bitAugRegister E r msg) (E.width / 8)
  rw [Nat.mul_div_cancel' (Nat.dvd_of_mod_eq_zero hw)] at hzeros
  exact List.foldl_append.trans hzeros

/-- R186, R187: the two finalisations agree on what the two families keep. -/
theorem finTbl_of_tableRegister {R : Nat} (h : TableRegister E R r) : finTbl E R = finBit E r := by
  obtain ⟨rfl, hr⟩ := h
  cases hrefin : E.refin <;> cases hrefout : E.refout <;>
    simp [finTbl, finBit, tableSeed, hrefin, hrefout, reflect_reflect hr]

end

/-- Settles O48: byte by byte the table registers are the bit-by-bit ones, and the finalisations agree on them. -/
theorem tableKernelsAgreeWithBitKernels : Obligations.TableKernelsAgreeWithBitKernels := by
  intro E hE haligned htable msg
  have hpos := hE.width_pos
  have hw : 8 ≤ E.width := by omega
  refine ⟨?_, finTbl_of_tableRegister (tableRegister_fast hE hw htable hE.initDirect_lt msg)⟩
  rw [bitAug, ← bitAugRegister_append_zeros hE haligned]
  exact finTbl_of_tableRegister (tableRegister_aug hE hw htable hE.initNodirect_lt _)

/-! ### The two families -/

section
variable {E : Engine}

/-- R193: the augmented result is the fast result from the folded seed. -/
theorem bitAug_eq_bitFast_fold (hE : EngineSound E) (msg : List Byte) :
    bitAug E msg = bitFast { E with initDirect := fold E.width E.poly E.initNodirect } msg := by
  rw [bitAug, iterate_zStep_bitAugRegister E hE.width_pos hE.width_le]
  rfl

/-- R193: seeds that are equivalent give results that agree. -/
theorem bitAug_eq_bitFast (hE : EngineSound E) (hseeds : fold E.width E.poly E.initNodirect = E.initDirect)
    (msg : List Byte) : bitAug E msg = bitFast E msg := by
  rw [bitAug_eq_bitFast_fold hE, hseeds]

theorem fold_lt {w poly v : Nat} (hw' : w ≤ 64) (hp : poly < 2 ^ w) (hv : v < 2 ^ w) : fold w poly v < 2 ^ w :=
  iterate_zStep_lt hw' hp hv w

theorem fold_zero (w poly : Nat) : fold w poly 0 = 0 := iterate_zStep_zero w poly w

/-- R186: the finalisation loses nothing of a register that fits the width. -/
theorem finBit_injOn (hE : EngineSound E) : Set.InjOn (finBit E) { r | r < 2 ^ E.width } := by
  intro a ha b hb h
  have reflected {r : Nat} (hr : r < 2 ^ E.width) : (if E.refout then reflect r E.width else r) < 2 ^ E.width := by
    split
    · exact reflect_lt _ _
    · exact hr
  rw [finBit, finBit, and_mask_of_lt hE.width_le (xor_lt (reflected ha) hE.xorout_lt),
    and_mask_of_lt hE.width_le (xor_lt (reflected hb) hE.xorout_lt)] at h
  replace h := Nat.xor_left_inj.1 h
  split at h
  · rw [← reflect_reflect ha, h, reflect_reflect hb]
  · exact h

end

/-- Settles O49: the fold carries the augmented register to the fast one; the empty message tells the seeds apart. -/
theorem augmentedResultIsTheFastResultFromTheFoldedSeed :
    Obligations.AugmentedResultIsTheFastResultFromTheFoldedSeed := by
  intro E hE
  refine ⟨bitAug_eq_bitFast_fold hE, fun h => ?_, bitAug_eq_bitFast hE⟩
  exact finBit_injOn hE (fold_lt hE.width_le hE.poly_lt hE.initNodirect_lt) hE.initDirect_lt (h [])

/-- Settles O51: with no byte to read the bit-by-bit kernels finalise their seeds, and the table kernels agree with
them. -/
theorem emptyMessageGivesTheSeedDerivedResult : Obligations.EmptyMessageGivesTheSeedDerivedResult := fun E hE =>
  ⟨rfl, rfl, fun haligned htable => (tableKernelsAgreeWithBitKernels E hE haligned htable []).symm⟩

/-- R196: an Engine of width `w` whose result on the empty message is its xorout. -/
def xoroutEngine (w v : Nat) : Engine :=
  { width := w, poly := 0, refin := false, refout := false, swap := false, fast := false, xorout := v, initDirect := 0,
    initNodirect := 0, table := zeroTable }

theorem runKernel_lt {E : Engine} (hw' : E.width ≤ 64) (k : Kernel) (msg : List Byte) :
    runKernel k E msg < 2 ^ E.width := by
  cases k with
  | tblAug | tblFast => exact finTbl_lt hw' _
  | bitAug | bitFast => exact finBit_lt hw' _

/-- R196: from INIT 0, unreflected, the result on the empty message is the xorout. -/
theorem bitFast_nil_of_init_zero {E : Engine} (hw' : E.width ≤ 64) (hrefout : E.refout = false)
    (hinit : E.initDirect = 0) (hxorout : E.xorout < 2 ^ E.width) : bitFast E [] = E.xorout := by
  rw [show bitFast E [] = finBit E E.initDirect from rfl, finBit, hrefout, hinit, if_neg Bool.false_ne_true,
    Nat.zero_xor, and_mask_of_lt hw' hxorout]

/-- Settles O52: a result is masked to the width, and the xorout alone reaches every value of it. -/
theorem kernelResultsAreExactlyTheValuesOfTheWidth : Obligations.KernelResultsAreExactlyTheValuesOfTheWidth := by
  refine ⟨fun E k msg _ hw' => runKernel_lt hw' k msg, fun w v hw hw' hv => ?_, fun E hw _ hrefout hinit hxorout => ?_⟩
  · exact ⟨xoroutEngine w v, ⟨hw, hw', Nat.two_pow_pos w, hv, Nat.two_pow_pos w, Nat.two_pow_pos w⟩, rfl,
      bitFast_nil_of_init_zero hw' rfl rfl hv⟩
  · rw [bitFast_nil_of_init_zero hw.le hrefout hinit (by rw [hxorout, hw]; decide), hxorout]
    rfl

/-! ### DEBUG -/

section
variable {s : State}

theorem EngineHeld.init_lt (h : EngineHeld s) : s.eng.params.init.toNat < 2 ^ (engineOf s).width :=
  (and_mask_eq_self_iff h.width_le _).1 h.init_fits

theorem EngineHeld.poly_lt (h : EngineHeld s) : (engineOf s).poly < 2 ^ (engineOf s).width :=
  (and_mask_eq_self_iff h.width_le _).1 h.poly_fits

/-- R38, R160: the direct seed of a held Engine. -/
theorem EngineHeld.initDirect_eq (h : EngineHeld s) : (engineOf s).initDirect = s.eng.params.init.toNat :=
  congrArg BitVec.toNat h.initDirect

/-- R38, R161: the non-direct seed of a held Engine. -/
theorem EngineHeld.initNodirect_eq (h : EngineHeld s) :
    (engineOf s).initNodirect = unfold (engineOf s).width (engineOf s).poly s.eng.params.init.toNat :=
  (congrArg BitVec.toNat h.initNodirect).trans
    (toNat_word_of_lt h.width_le (unfold_lt h.width_pos h.poly_lt h.init_lt))

/-- R39: a held Engine is sound. -/
theorem EngineHeld.sound (h : EngineHeld s) : EngineSound (engineOf s) where
  width_pos := h.width_pos
  width_le := h.width_le
  poly_lt := h.poly_lt
  xorout_lt := (and_mask_eq_self_iff h.width_le _).1 h.xorout_fits
  initDirect_lt := h.initDirect_eq ▸ h.init_lt
  initNodirect_lt := h.initNodirect_eq ▸ unfold_lt h.width_pos h.poly_lt h.init_lt

/-- R39, R170: a held Engine has the table of its record, on the widths the table kernels take. -/
theorem EngineHeld.tableRight (h : EngineHeld s) (haligned : (engineOf s).width % 8 = 0) :
    EngineTableRight (engineOf s) := by
  have hpos : 1 ≤ (engineOf s).width := h.width_pos
  have hw : 8 ≤ cfgWidth s.eng.params.cfg := show 8 ≤ (engineOf s).width by omega
  intro i
  have hentry := h.table i
  rw [tableValue, if_pos hw] at hentry
  exact (congrArg BitVec.toNat hentry).trans (toNat_word_of_lt h.width_le (and_mask_lt h.width_le _))

/-- R192 on a held Engine: the two kernels of a family agree. -/
theorem EngineHeld.table_kernels (h : EngineHeld s) (haligned : (engineOf s).width % 8 = 0) (msg : List Byte) :
    tblAug (engineOf s) msg = bitAug (engineOf s) msg ∧ tblFast (engineOf s) msg = bitFast (engineOf s) msg :=
  tableKernelsAgreeWithBitKernels _ h.sound haligned (h.tableRight haligned) msg

/-- R193, R194 on a held Engine: where the seeds are equivalent the families agree. -/
theorem EngineHeld.families (h : EngineHeld s)
    (hseeds : fold (engineOf s).width (engineOf s).poly
      (unfold (engineOf s).width (engineOf s).poly s.eng.params.init.toNat) = s.eng.params.init.toNat)
    (msg : List Byte) : bitAug (engineOf s) msg = bitFast (engineOf s) msg :=
  bitAug_eq_bitFast h.sound (by rwa [h.initNodirect_eq, h.initDirect_eq]) msg

/-- R261 on a held Engine: agreement is that of the families. -/
theorem EngineHeld.debugAgree_iff (h : EngineHeld s) (msg : List Byte) :
    debugAgree (engineOf s) msg = true ↔ bitAug (engineOf s) msg = bitFast (engineOf s) msg := by
  by_cases haligned : (engineOf s).width % 8 = 0
  · simp [debugAgree, h.table_kernels haligned msg]
  · simp [debugAgree, haligned]

/-- R261, R192: the DBG values of the two kernels of a family. -/
theorem EngineHeld.debugResults_aligned (h : EngineHeld s) (haligned : (engineOf s).width % 8 = 0) (msg : List Byte) :
    (debugResults (engineOf s) msg).tblAug = (debugResults (engineOf s) msg).bitAug ∧
      (debugResults (engineOf s) msg).tblFast = (debugResults (engineOf s) msg).bitFast := by
  obtain ⟨haug, hfast⟩ := h.table_kernels haligned msg
  simp [debugResults, haligned, haug, hfast]

end

/-- Settles O50: DEBUG passes its checks, so it ends by `debugAgree`, which on a held Engine says whether the families
agree; they do where the seeds are equivalent. -/
theorem debugAgreesWhenTheSeedsAreEquivalent : Obligations.DebugAgreesWhenTheSeedsAreEquivalent := by
  intro s hinv hengine hvalid hrange E init equivalent
  have held := hinv.held hengine
  have hodd (h : E.poly % 2 = 1) : equivalent := fold_unfold held.width_pos held.width_le held.poly_lt h held.init_lt
  have hzero (h : init = 0) : equivalent := by
    rw [show equivalent = (fold E.width E.poly (unfold E.width E.poly init) = init) from rfl, h, unfold_zero, fold_zero]
  refine ⟨hodd, hzero, ?_⟩
  rcases execDebug_cases s with ⟨hnull, -⟩ | ⟨-, -, hout, -⟩ | ⟨-, -, -, hagree, hend⟩ | ⟨-, -, -, hdisagree, hend⟩
  · exact absurd ⟨hengine, hvalid⟩ hnull
  · exact absurd hout (Bool.eq_false_iff.1 (bufferOutOfRange_eq_false_iff.2 hrange))
  · have hbit : (debugResults E (message s)).bitAug = word (bitFast E (message s)) :=
      congrArg word ((held.debugAgree_iff _).1 hagree)
    refine ⟨_, hend, fun _ => ⟨rfl, rfl, rfl, hbit, rfl, fun haligned => ?_⟩, nofun,
      fun haligned => held.debugResults_aligned haligned _⟩
    obtain ⟨haug, hfast⟩ := held.debugResults_aligned haligned (message s)
    exact ⟨haug.trans hbit, hfast⟩
  · have hseeds : ¬ equivalent := fun h =>
      Bool.eq_false_iff.1 hdisagree ((held.debugAgree_iff _).2 (held.families h _))
    exact ⟨_, hend, fun h => absurd h hseeds, fun _ => ⟨Nat.mod_two_ne_one.1 (mt hodd hseeds), hseeds⟩,
      fun haligned => held.debugResults_aligned haligned _⟩

end Sys2Proof.Machine
end

section
/-! SUPPORT. The lifecycle family: the derived registers and the table of a held Engine as naturals, and the statements
about CREATE, DESTROY and BUILD_TABLE (R230 to R240). -/

namespace Sys2Proof.Machine

/-! ### The derived registers of a held Engine -/

/-- R170: a table entry fits the width. -/
theorem tableEntry_lt {w : Nat} (hw' : w ≤ 64) (poly : Nat) (refin : Bool) (i : Nat) :
    tableEntry w poly refin i < 2 ^ w := and_mask_lt hw' _

section
variable {s : State}

/-- R38: E_CRCMASK of a held Engine. -/
theorem EngineHeld.crcmask_toNat (h : EngineHeld s) : s.eng.crcmask.toNat = 2 ^ cfgWidth s.eng.params.cfg - 1 := by
  rw [h.crcmask, toNat_word_of_lt h.width_le (mask_lt h.width_le), mask_of_le h.width_le]

/-- R38: E_HIGHBIT of a held Engine. -/
theorem EngineHeld.highbit_toNat (h : EngineHeld s) : s.eng.highbit.toNat = 2 ^ (cfgWidth s.eng.params.cfg - 1) := by
  rw [h.highbit, Nat.one_shiftLeft, toNat_word_of_lt h.width_le (Nat.two_pow_pred_lt_two_pow h.width_pos)]

/-- R170, R171: an entry of the table of a held Engine, for every width. -/
theorem EngineHeld.table_toNat (h : EngineHeld s) (i : Fin Config.tableEntries) :
    s.table[i].toNat =
      if cfgWidth s.eng.params.cfg < 8 then 0
      else tableEntry (cfgWidth s.eng.params.cfg) s.eng.params.poly.toNat (cfgRefin s.eng.params.cfg) i.val := by
  rw [h.table i, tableValue]
  by_cases hw : cfgWidth s.eng.params.cfg < 8
  · rw [if_pos hw, if_neg (Nat.not_le.2 hw)]
    rfl
  · rw [if_neg hw, if_pos (Nat.not_lt.1 hw), toNat_word_of_lt h.width_le (tableEntry_lt h.width_le _ _ _)]

end

/-! ### CREATE -/

/-- R151: a staged record with a width of 1 to 64 and values that fit it has no violation. -/
theorem stagedViolations_none {s : State} (hw : 1 ≤ cfgWidth s.staged.cfg) (hw' : cfgWidth s.staged.cfg ≤ 64)
    (hpoly : s.staged.poly.toNat < 2 ^ cfgWidth s.staged.cfg) (hinit : s.staged.init.toNat < 2 ^ cfgWidth s.staged.cfg)
    (hxorout : s.staged.xorout.toNat < 2 ^ cfgWidth s.staged.cfg) : (stagedViolations s).none = true := by
  simp [stagedViolations_eq, Violations.none, hw, hw', hpoly, hinit, hxorout]

/-- Settles O28: the record has no violation, so CREATE builds a held Engine, whose derived registers and table
the lemmas above give; nothing else of the state is written. -/
theorem createBuildsTheEngineOfAValidRecord : Obligations.CreateBuildsTheEngineOfAValidRecord := by
  intro s w hempty hw hw' hpoly hinit hxorout
  have hvalid := stagedViolations_none hw hw' hpoly hinit hxorout
  rcases execCreate_cases s with ⟨hengine, -⟩ | ⟨-, -, hend⟩ | ⟨-, hinvalid, -⟩
  · exact absurd hengine (Bool.eq_false_iff.1 hempty)
  · have held := engineHeld_of_created hvalid
    exact ⟨_, hend, rfl, held.crcmask_toNat, held.highbit_toNat, held.initDirect, held.initNodirect_eq,
      held.table_toNat, rfl, rfl⟩
  · exact absurd hvalid (Bool.eq_false_iff.1 hinvalid)

/-- Settles O30: the first of the ways CREATE ends. -/
theorem createWhileReadyLeavesTheEngine : Obligations.CreateWhileReadyLeavesTheEngine := by
  intro s hready
  obtain ⟨-, -, hexists, -⟩ := raiseError_plain opCreate s
  rcases execCreate_cases s with ⟨-, hend⟩ | ⟨hempty, -⟩ | ⟨hempty, -⟩
  · exact hend.trans (congrArg Host.Outcome.next hexists)
  all_goals exact absurd hready (Bool.eq_false_iff.1 hempty)

/-! ### DESTROY -/

/-- Settles O31: DESTROY releases the Engine that is held, or completes where none is. -/
theorem destroyReleasesTheEngine : Obligations.DestroyReleasesTheEngine := by
  refine ⟨rfl, fun s => ?_⟩
  rcases execDestroy_cases s with ⟨hready, hend⟩ | ⟨hempty, hend⟩
  · have hcleared (i : Fin Config.tableEntries) : zeroTable[i] = 0 := Vector.getElem_replicate i.isLt
    exact ⟨fun _ => ⟨_, hend, rfl, hcleared, rfl, rfl⟩, fun hempty => absurd hready (Bool.eq_false_iff.1 hempty)⟩
  · exact ⟨fun hready => absurd hready (Bool.eq_false_iff.1 hempty), fun _ => hend⟩

/-! ### BUILD_TABLE -/

/-- Settles O32: the three ways BUILD_TABLE ends exclude each other; the last writes the table of the Engine. -/
theorem buildTableIsIdempotent : Obligations.BuildTableIsIdempotent := by
  refine ⟨rfl, fun s => ?_⟩
  rcases execBuildTable_cases s with ⟨hempty, hend⟩ | ⟨hready, hbuilt, hend⟩ | ⟨hready, hunbuilt, hend⟩
  · have hnot := Bool.eq_false_iff.1 hempty
    exact ⟨fun hready => absurd hready hnot, fun _ => hend, fun hready => absurd hready hnot⟩
  · exact ⟨fun _ _ => hend, fun hempty => absurd hready (Bool.eq_false_iff.1 hempty),
      fun _ hunbuilt => absurd hbuilt (Bool.eq_false_iff.1 hunbuilt)⟩
  · exact ⟨fun _ hbuilt => absurd hbuilt (Bool.eq_false_iff.1 hunbuilt),
      fun hempty => absurd hready (Bool.eq_false_iff.1 hempty),
      fun _ _ => ⟨_, hend, tableOf_getElem _ _ _, rfl, rfl⟩⟩

end Sys2Proof.Machine
end

section
/-! SUPPORT. The diagnostics family: what DEBUG and SELFTEST end in under each of their checks, the register after an
appended checksum, and the statements about both (R261, R266, R275). -/

namespace Sys2Proof.Machine

/-! ### DEBUG -/

section
variable {s : State}

theorem execDebug_nullInput (hnull : (s.status.engine && bufValid s) = false) :
    execDebug s = .next (raiseError opDebug (.nullInput (!s.status.engine) (!bufValid s)) s) := by
  rw [← Bool.not_eq_true', Bool.not_and] at hnull
  exact if_pos hnull

theorem execDebug_bufferRange (hengine : s.status.engine = true) (hvalid : bufValid s = true)
    (hrange : bufferOutOfRange s = true) : execDebug s = .next (raiseError opDebug .bufferRange s) := by
  simp [execDebug, hengine, hvalid, hrange]

/-- R261: the results agree, and the last of them goes to RESULT. -/
theorem execDebug_agreed (hengine : s.status.engine = true) (hvalid : bufValid s = true)
    (hrange : bufferOutOfRange s = false) (hagree : debugAgree (engineOf s) (message s) = true) :
    execDebug s = .next (finishDebug true (decide ((engineOf s).width % 8 = 0)) none
      { s with dbg := debugResults (engineOf s) (message s), result := word (bitFast (engineOf s) (message s)) }) := by
  simp [execDebug, hengine, hvalid, hrange, hagree]

/-- R261: the results differ, and RESULT stays as it is. -/
theorem execDebug_disagreed (hengine : s.status.engine = true) (hvalid : bufValid s = true)
    (hrange : bufferOutOfRange s = false) (hdisagree : debugAgree (engineOf s) (message s) = false) :
    execDebug s = .next (finishDebug false (decide ((engineOf s).width % 8 = 0)) (some .kernelDisagree)
      { s with dbg := debugResults (engineOf s) (message s) }) := by
  simp [execDebug, hengine, hvalid, hrange, hdisagree]

end

/-- R261: all results that were computed are equal. -/
theorem debugAgree_iff (E : Engine) (msg : List Byte) :
    debugAgree E msg = true ↔ bitAug E msg = bitFast E msg ∧
      (E.width % 8 = 0 → tblAug E msg = bitAug E msg ∧ tblFast E msg = bitFast E msg) := by
  by_cases hw : E.width % 8 = 0 <;> simp [debugAgree, hw]

/-- Settles O38: DEBUG under the checks before each of its outcomes. -/
theorem debugComparesEveryApplicableKernel : Obligations.DebugComparesEveryApplicableKernel := by
  refine ⟨rfl, fun s => ?_⟩
  intro E msg valid tbl d agree
  have hd : debugResults E msg = d := by simp [debugResults, d, tbl]
  have hagree : debugAgree E msg = true ↔ agree := by simp [debugAgree_iff, agree, tbl]
  refine ⟨fun hnull => execDebug_nullInput hnull, fun hengine hvalid hrange => ?_,
    fun hengine hvalid hrange h => ?_, fun hengine hvalid hrange h => ?_⟩
  · exact execDebug_bufferRange hengine hvalid (decide_eq_true hrange)
  · exact hd ▸ execDebug_agreed hengine hvalid (bufferOutOfRange_eq_false_iff.2 hrange) (hagree.2 h)
  · exact hd ▸ execDebug_disagreed hengine hvalid (bufferOutOfRange_eq_false_iff.2 hrange)
      (Bool.eq_false_iff.2 (mt hagree.1 h))

/-! ### SELFTEST -/

/-- R123: the SELFTEST form of a kernel select value. -/
def selftestForm : KernelSel → Instr
  | .auto => .selftestAuto
  | .tblAug => .selftestTblAug
  | .tblFast => .selftestTblFast
  | .bitAug => .selftestBitAug
  | .bitFast => .selftestBitFast

theorem exec_selftestForm (k : KernelSel) (s : State) : exec (selftestForm k) s = selftestCommon k s := by
  cases k <;> rfl

theorem exists_selftestForm {i : Instr}
    (h : i ∈ [.selftestAuto, .selftestTblAug, .selftestTblFast, .selftestBitAug, .selftestBitFast]) :
    ∃ k, i = selftestForm k := by
  simp only [List.mem_cons, List.not_mem_nil, or_false] at h
  obtain rfl | rfl | rfl | rfl | rfl := h
  exacts [⟨.auto, rfl⟩, ⟨.tblAug, rfl⟩, ⟨.tblFast, rfl⟩, ⟨.bitAug, rfl⟩, ⟨.bitFast, rfl⟩]

/-- R266: how a SELFTEST ends that ran its kernel. Tied to the model by `selftestCommon_ran`. -/
def endSelftest (v : Nat) (s : State) : State :=
  { s with
    result := word v
    status := if v = s.eng.params.check.toNat then succeeded opSelftest s.status else failed opSelftest 0x04 s.status }

section
variable {k : KernelSel} {s : State}

theorem selftestCommon_nullInput (hempty : s.status.engine = false) :
    selftestCommon k s = .next (raiseError opSelftest (.nullInput true false) s) := by
  simp [selftestCommon, hempty]

theorem selftestCommon_widthNotAligned (hengine : s.status.engine = true)
    (hwidth : widthNotAligned (engineOf s) (resolve (engineOf s) k) = true) :
    selftestCommon k s = .next (raiseError opSelftest .widthNotAligned s) := by
  simp [selftestCommon, hengine, hwidth]

/-- R266: with its checks passed, SELFTEST ends with the value of the kernel its select resolves to. -/
theorem selftestCommon_ran (hengine : s.status.engine = true)
    (hwidth : widthNotAligned (engineOf s) (resolve (engineOf s) k) = false) :
    selftestCommon k s = .next (endSelftest (runKernel (resolve (engineOf s) k) (engineOf s) rom) s) := by
  rcases selftestCommon_cases k s with ⟨hempty, -⟩ | ⟨-, hunaligned, -⟩ | ⟨-, -, hmatch, hend⟩ | ⟨-, -, hdiffer, hend⟩
  · exact absurd hengine (Bool.eq_false_iff.1 hempty)
  · exact absurd hunaligned (Bool.eq_false_iff.1 hwidth)
  · rw [hend, endSelftest, if_pos hmatch]
    rfl
  · rw [hend, endSelftest, if_neg hdiffer]
    rfl

end

/-- Settles O39: each form is `selftestCommon` with its select resolved, under the checks before each outcome. -/
theorem selftestComparesTheReferenceVector : Obligations.SelftestComparesTheReferenceVector := by
  refine ⟨rfl, fun s => ?_⟩
  intro E v9 ends
  have ran (k : KernelSel) (hengine : s.status.engine = true)
      (hwidth : ¬ ((runForm k = .runTblAug ∨ runForm k = .runTblFast) ∧ E.width % 8 ≠ 0)) :
      exec (selftestForm k) s = .next (ends (runKernel (resolve E k) E v9)) :=
    (exec_selftestForm k s).trans
      (selftestCommon_ran hengine (Bool.eq_false_iff.2 (mt (widthNotAligned_resolve E k).1 hwidth)))
  have unaligned (k : KernelSel) (hengine : s.status.engine = true)
      (hwidth : (runForm k = .runTblAug ∨ runForm k = .runTblFast) ∧ E.width % 8 ≠ 0) :
      exec (selftestForm k) s = .next { s with status := failed 0x6 0x07 s.status } :=
    (exec_selftestForm k s).trans
      (selftestCommon_widthNotAligned hengine ((widthNotAligned_resolve E k).2 hwidth))
  have auto (hengine : s.status.engine = true) {a b : Kernel} (h : resolve E .auto = if E.fast then a else b) :
      exec .selftestAuto s = .next (ends (if E.fast then runKernel a E v9 else runKernel b E v9)) := by
    rw [← apply_ite (runKernel · E v9), ← h]
    exact ran .auto hengine (by simp [runForm])
  refine ⟨fun hempty i hi => ?_, fun hengine => ?_, fun hengine hw => ?_, fun hengine hw => ?_⟩
  · obtain ⟨k, rfl⟩ := exists_selftestForm hi
    exact (exec_selftestForm k s).trans (selftestCommon_nullInput hempty)
  · exact ⟨ran .bitAug hengine (by simp [runForm]), ran .bitFast hengine (by simp [runForm])⟩
  · exact ⟨ran .tblAug hengine (by simp [hw]), ran .tblFast hengine (by simp [hw]), auto hengine (if_pos hw)⟩
  · exact ⟨unaligned .tblAug hengine ⟨.inl rfl, hw⟩, unaligned .tblFast hengine ⟨.inr rfl, hw⟩,
      auto hengine (if_neg hw)⟩

/-! ### The appended checksum -/

/-- The low `n` bytes of a value, the least significant first. Tied to the model by `suffixBytes_map_inputByte`. -/
def valueBytes (n v : Nat) : List Nat := (List.range n).map fun k => (v >>> (8 * k)) % 256

theorem valueBytes_succ (n v : Nat) : valueBytes (n + 1) v = v % 256 :: valueBytes n (v >>> 8) := by
  simp only [valueBytes, List.range_succ_eq_map, List.map_cons, List.map_map, Function.comp_def, ← Nat.shiftRight_add,
    Nat.succ_eq_add_one, Nat.mul_add, Nat.mul_zero, Nat.mul_one, Nat.shiftRight_zero, Nat.add_comm 8]

/-- A value shifted up is what lies above its low byte and the low byte, each shifted up. -/
theorem shiftLeft_split_byte (v m : Nat) : v <<< m = (v >>> 8) <<< (m + 8) ^^^ (v % 256) <<< m := by
  have hsplit : v = (v >>> 8) <<< 8 ^^^ v % 256 := by
    apply Nat.eq_of_testBit_eq
    intro i
    rw [Nat.testBit_xor, Nat.testBit_shiftLeft, Nat.testBit_shiftRight, Nat.testBit_mod_two_pow (j := 8)]
    by_cases hi : i < 8
    · simp [hi, show ¬ 8 ≤ i by omega]
    · simp [hi, show 8 ≤ i by omega]
  conv_lhs => rw [hsplit]
  rw [Nat.shiftLeft_xor_distrib, ← Nat.shiftLeft_add, Nat.add_comm 8]

/-- R189: the bytes of a value read most significant first are the value XORed into the top of the register, and as many
ZSteps as they have bits. -/
theorem foldl_eightBits_valueBytes {w poly n v : Nat} (hn : 8 * n ≤ w) (hw' : w ≤ 64) (hv : v < 2 ^ (8 * n)) (r : Nat) :
    (valueBytes n v).reverse.foldl (eightBits (fStep w poly)) r =
      (zStep w poly)^[8 * n] (r ^^^ v <<< (w - 8 * n)) := by
  induction n generalizing v with
  | zero =>
    obtain rfl : v = 0 := Nat.lt_one_iff.1 hv
    simp [valueBytes]
  | succ n ih =>
    have hbyte : v % 256 < 256 := Nat.mod_lt _ (by decide)
    have hrest : v >>> 8 < 2 ^ (8 * n) := by
      rw [Nat.shiftRight_eq_div_pow]
      exact Nat.div_lt_of_lt_mul (by rwa [← pow_add, Nat.add_comm, ← Nat.mul_succ])
    have hshift : (v % 256) <<< (w - 8) = (zStep w poly)^[8 * n] ((v % 256) <<< (w - 8 * (n + 1))) := by
      rw [iterate_zStep_of_lt (by omega) hw', ← Nat.shiftLeft_add, show w - 8 * (n + 1) + 8 * n = w - 8 by omega]
      rw [Nat.mul_succ, ← Nat.sub_sub]
      exact byte_shiftLeft_lt (by omega) hbyte
    calc (valueBytes (n + 1) v).reverse.foldl (eightBits (fStep w poly)) r
        = eightBits (fStep w poly) ((valueBytes n (v >>> 8)).reverse.foldl (eightBits (fStep w poly)) r) (v % 256) := by
          rw [valueBytes_succ, List.reverse_cons, List.foldl_append]
          rfl
      _ = (zStep w poly)^[8] ((zStep w poly)^[8 * n]
            (r ^^^ (v >>> 8) <<< (w - 8 * n) ^^^ (v % 256) <<< (w - 8 * (n + 1)))) := by
          rw [ih (by omega) hrest, eightBits_fStep (by omega) hw' _ _ hbyte, hshift, ← iterate_zStep_xor]
      _ = (zStep w poly)^[8 * (n + 1)] (r ^^^ v <<< (w - 8 * (n + 1))) := by
          rw [← Function.iterate_add_apply, shiftLeft_split_byte v, Nat.xor_assoc,
            show w - 8 * (n + 1) + 8 = w - 8 * n by omega, Nat.mul_succ, Nat.add_comm 8]

/-- R155: a byte of a value, reflected, is the byte of the reflected value at the mirrored place. -/
theorem reflect_byte_of_value {w j : Nat} (hj : j + 8 ≤ w) (v : Nat) :
    reflect ((v >>> j) % 256) 8 = (reflect v w >>> (w - 8 - j)) % 256 := by
  apply Nat.eq_of_testBit_eq
  intro i
  rw [testBit_reflect, Nat.testBit_mod_two_pow (j := 8), Nat.testBit_mod_two_pow (j := 8), Nat.testBit_shiftRight,
    Nat.testBit_shiftRight, testBit_reflect]
  by_cases hi : i < 8
  · simp [hi, show 7 - i < 8 by omega, show w - 8 - j + i < w by omega,
      show w - 1 - (w - 8 - j + i) = j + (7 - i) by omega]
  · simp [hi]

section
variable {E : Engine}

/-- R156: the table family's form of a register is undone by taking it once more. -/
theorem tableSeed_tableSeed {r : Nat} (hr : r < 2 ^ E.width) : tableSeed E (tableSeed E r) = r := by
  cases hrefin : E.refin <;> simp [tableSeed, hrefin, reflect_reflect hr]

theorem bitFastRegister_lt (hE : EngineSound E) {r : Nat} (hr : r < 2 ^ E.width) (msg : List Byte) :
    bitFastRegister E r msg < 2 ^ E.width := by
  induction msg generalizing r with
  | nil => exact hr
  | cons m msg ih => exact ih (eightBits_fStep_lt hE r _)

/-- R186: the register 0 is finalised to the xorout. -/
theorem finBit_zero (hE : EngineSound E) : finBit E 0 = E.xorout := by
  simp [finBit, and_mask_of_lt hE.width_le hE.xorout_lt]

section
variable (hE : EngineSound E) (haligned : E.width % 8 = 0) (hreflect : E.refin = E.refout) (hswap : E.swap = false)

include hE hreflect in
/-- R186, R189: with `refin = refout` a result is the table family's form of the register, and the xorout. -/
theorem bitFast_eq_tableSeed_xor (msg : List Byte) :
    bitFast E msg = tableSeed E (bitFastRegister E E.initDirect msg) ^^^ E.xorout := by
  rw [bitFast, finBit, ← hreflect]
  exact and_mask_of_lt hE.width_le
    (xor_lt (tableSeed_lt (bitFastRegister_lt hE hE.initDirect_lt msg)) hE.xorout_lt)

include haligned hreflect hswap

/-- R276: with `refin = refout` and SWAP 0 the bytes of a checksum enter the register as those of the value the register
held, the most significant first. -/
theorem suffixBytes_map_inputByte (v : Nat) :
    (suffixBytes E v).map (inputByte E.refin) = (valueBytes (E.width / 8) (tableSeed E v)).reverse := by
  have hlsb : suffixLsbFirst E = E.refin := by simp [suffixLsbFirst, hreflect, hswap]
  cases hrefin : E.refin
  · simp [suffixBytes, valueBytes, tableSeed, inputByte, hlsb, hrefin, Function.comp_def]
  · refine List.ext_getElem (by simp [suffixBytes, valueBytes, hlsb, hrefin]) fun k hk _ => ?_
    have hk' : k < E.width / 8 := by simpa [suffixBytes, hlsb, hrefin] using hk
    have hbyte := reflect_byte_of_value (show 8 * k + 8 ≤ E.width by omega) v
    rw [show E.width - 8 - 8 * k = 8 * (E.width / 8 - 1 - k) by omega] at hbyte
    simpa [suffixBytes, valueBytes, tableSeed, inputByte, hlsb, hrefin] using hbyte

include hE

/-- R275: the register after an appended checksum is the fold of the register and the value the checksum stands for. -/
theorem bitFastRegister_suffixBytes {v : Nat} (hv : v < 2 ^ E.width) (r : Nat) :
    bitFastRegister E r (suffixBytes E v) = fold E.width E.poly (r ^^^ tableSeed E v) := by
  have hwidth : 8 * (E.width / 8) = E.width := Nat.mul_div_cancel' (Nat.dvd_of_mod_eq_zero haligned)
  have hlt : tableSeed E v < 2 ^ (8 * (E.width / 8)) := hwidth.symm ▸ tableSeed_lt hv
  calc bitFastRegister E r (suffixBytes E v)
      = ((suffixBytes E v).map (inputByte E.refin)).foldl (eightBits (fStep E.width E.poly)) r := List.foldl_map.symm
    _ = (zStep E.width E.poly)^[8 * (E.width / 8)] (r ^^^ tableSeed E v <<< (E.width - 8 * (E.width / 8))) := by
        rw [suffixBytes_map_inputByte haligned hreflect hswap, foldl_eightBits_valueBytes hwidth.le hE.width_le hlt]
    _ = fold E.width E.poly (r ^^^ tableSeed E v) := by rw [hwidth, Nat.sub_self, Nat.shiftLeft_zero, fold]

theorem bitFast_append_suffixBytes {v : Nat} (hv : v < 2 ^ E.width) (msg : List Byte) :
    bitFast E (msg ++ suffixBytes E v) =
      finBit E (fold E.width E.poly (bitFastRegister E E.initDirect msg ^^^ tableSeed E v)) := by
  rw [← bitFastRegister_suffixBytes hE haligned hreflect hswap hv, bitFast, bitFastRegister, List.foldl_append]
  rfl

/-- R275 clause 2: the register before the last `w` ZSteps is the xorout, as the register holds it. -/
theorem residue_eq : residue E = finBit E (fold E.width E.poly (tableSeed E E.xorout)) := by
  have h := bitFastRegister_suffixBytes hE haligned hreflect hswap hE.xorout_lt 0
  rw [Nat.zero_xor] at h
  exact congrArg (finBit E) h

/-- R275 clause 1: appended without its xorout, a checksum clears the register. -/
theorem bitFast_append_xorout (msg : List Byte) :
    bitFast E (msg ++ suffixBytes E (bitFast E msg ^^^ E.xorout)) = E.xorout := by
  have hlt : bitFast E msg ^^^ E.xorout < 2 ^ E.width := xor_lt (runKernel_lt hE.width_le .bitFast msg) hE.xorout_lt
  rw [bitFast_append_suffixBytes hE haligned hreflect hswap hlt, bitFast_eq_tableSeed_xor hE hreflect, Nat.xor_assoc,
    Nat.xor_self, Nat.xor_zero, tableSeed_tableSeed (bitFastRegister_lt hE hE.initDirect_lt msg), Nat.xor_self,
    fold_zero, finBit_zero hE]

/-- R275 clause 2: appended as it is, a checksum leaves its xorout in the register. -/
theorem bitFast_append_self (msg : List Byte) : bitFast E (msg ++ suffixBytes E (bitFast E msg)) = residue E := by
  have hlt : bitFast E msg < 2 ^ E.width := runKernel_lt hE.width_le .bitFast msg
  rw [bitFast_append_suffixBytes hE haligned hreflect hswap hlt, bitFast_eq_tableSeed_xor hE hreflect, tableSeed_xor,
    tableSeed_tableSeed (bitFastRegister_lt hE hE.initDirect_lt msg), ← Nat.xor_assoc, Nat.xor_self, Nat.zero_xor,
    residue_eq hE haligned hreflect hswap]

/-- R275 clause 3. -/
theorem residue_of_xorout_zero (hxorout : E.xorout = 0) : residue E = 0 := by
  have hseed : tableSeed E 0 = 0 := by cases hrefin : E.refin <;> simp [tableSeed, hrefin]
  rw [residue_eq hE haligned hreflect hswap, hxorout, hseed, fold_zero, finBit_zero hE, hxorout]

end

end

/-- Settles O53: the laws of BIT_FAST, and the other kernels as BIT_FAST on every message. -/
theorem appendedChecksumGivesTheResidue : Obligations.AppendedChecksumGivesTheResidue := by
  intro E msg hE haligned hreflect hswap laws
  have hself := bitFast_append_self hE haligned hreflect hswap msg
  have hfast : laws (bitFast E) :=
    ⟨bitFast_append_xorout hE haligned hreflect hswap msg, hself, by rw [hself]⟩
  have as_bitFast {kernel : List Byte → Nat} (h : ∀ m, kernel m = bitFast E m) : laws kernel :=
    (funext h : kernel = bitFast E) ▸ hfast
  refine ⟨hfast, fun htable => ?_, fun hseeds => ⟨?_, fun htable => ?_⟩, fun _ => rfl,
    residue_of_xorout_zero hE haligned hreflect hswap⟩
  · exact as_bitFast fun m => (tableKernelsAgreeWithBitKernels E hE haligned htable m).2
  · exact as_bitFast (bitAug_eq_bitFast hE hseeds)
  · exact as_bitFast fun m =>
      (tableKernelsAgreeWithBitKernels E hE haligned htable m).1.trans (bitAug_eq_bitFast hE hseeds m)

end Sys2Proof.Machine
end

section
/-! SUPPORT. The exceptions family: what a completion reports, whatever PENDING holds, and that every step answers a next
state (R302, R306). -/

namespace Sys2Proof.Machine

/-! ### What a completion reports -/

section
variable {i : Instr} {k : KernelSel} {s t : State}

theorem lastop_of_runCommon (h : runCommon k s = .next t) : t.status.lastop = opRun := by
  rcases runCommon_cases k s with ⟨-, e⟩ | ⟨-, -, -, e⟩ | ⟨-, -, -, -, e⟩ | ⟨-, -, -, -, e⟩ <;>
    cases e.symm.trans h <;> rfl

theorem lastop_of_selftestCommon (h : selftestCommon k s = .next t) : t.status.lastop = opSelftest := by
  rcases selftestCommon_cases k s with ⟨-, e⟩ | ⟨-, -, e⟩ | ⟨-, -, -, e⟩ | ⟨-, -, -, e⟩ <;>
    cases e.symm.trans h <;> rfl

/-- R306: a command leaves its own OP in LASTOP, however it ends. -/
theorem lastop_of_exec (h : exec i s = .next t) : t.status.lastop = i.op := by
  cases i with
  | create =>
    rcases execCreate_cases s with ⟨-, e⟩ | ⟨-, -, e⟩ | ⟨-, -, e⟩ <;> cases e.symm.trans h <;> rfl
  | destroy =>
    rcases execDestroy_cases s with ⟨-, e⟩ | ⟨-, e⟩ <;> cases e.symm.trans h <;> rfl
  | buildTable =>
    rcases execBuildTable_cases s with ⟨-, e⟩ | ⟨-, -, e⟩ | ⟨-, -, e⟩ <;> cases e.symm.trans h <;> rfl
  | debug =>
    rcases execDebug_cases s with ⟨-, e⟩ | ⟨-, -, -, e⟩ | ⟨-, -, -, -, e⟩ | ⟨-, -, -, -, e⟩ <;>
      cases e.symm.trans h <;> rfl
  | reflect n =>
    rcases execReflect_cases n s with ⟨-, -, e⟩ | ⟨-, e⟩ <;> cases e.symm.trans h <;> rfl
  | runAuto => exact lastop_of_runCommon (k := .auto) h
  | runTblAug => exact lastop_of_runCommon (k := .tblAug) h
  | runTblFast => exact lastop_of_runCommon (k := .tblFast) h
  | runBitAug => exact lastop_of_runCommon (k := .bitAug) h
  | runBitFast => exact lastop_of_runCommon (k := .bitFast) h
  | selftestAuto => exact lastop_of_selftestCommon (k := .auto) h
  | selftestTblAug => exact lastop_of_selftestCommon (k := .tblAug) h
  | selftestTblFast => exact lastop_of_selftestCommon (k := .tblFast) h
  | selftestBitAug => exact lastop_of_selftestCommon (k := .bitAug) h
  | selftestBitFast => exact lastop_of_selftestCommon (k := .bitFast) h

/-- R126, R306: an illegal word leaves its OP field in LASTOP as a command does. -/
theorem lastop_of_completePending (h : completePending s = .next t) :
    t.status.lastop = s.pending.extractLsb' 0 4 := by
  rcases completePending_cases s with ⟨i, hdecode, e⟩ | ⟨_, -, e⟩
  · rw [fieldOp_of_decode hdecode]
    exact lastop_of_exec (e.symm.trans h)
  · cases e.symm.trans h
    rfl

/-- R240: the warning is BUILD_TABLE's alone. -/
theorem Completion.eq_buildTable_of_warn (h : Completion s i t) (hwarn : t.status.warn = true) : i = .buildTable := by
  cases h with
  | tableExists | rebuilt => rfl
  | raised | created | released | nothingHeld | produced | agreed | disagreed | matched | mismatched => nomatch hwarn

/-- R261: AGREE and DBG_TBL are DEBUG's alone. -/
theorem Completion.eq_debug_of_agree_or_dbgTbl (h : Completion s i t)
    (hflag : t.status.agree = true ∨ t.status.dbgTbl = true) : i = .debug := by
  cases h with
  | agreed | disagreed => rfl
  | raised | created | released | nothingHeld | tableExists | rebuilt | produced | matched | mismatched =>
    nomatch hflag

/-- R127: where only one command ends as the completion did, PENDING is the word of that command. An illegal word ends as
every command can. -/
theorem pending_eq_encode {j : Instr} (h : completePending s = .next t) (honly : ∀ i, Completion s i t → i = j) :
    s.pending = encode j := by
  rcases completePending_cases s with ⟨i, hdecode, e⟩ | ⟨_, -, e⟩
  · rw [← honly i (completion_of_exec (e.symm.trans h)), encode_of_decode hdecode]
  · cases e.symm.trans h
    have eq_j (i : Instr) : i = j := honly i (completion_illegalCommand s i)
    exact nomatch (eq_j .create).trans (eq_j .destroy).symm

theorem LastCommand.err_eq_false {u : Status} (h : LastCommand u) (hcode : u.errcode = 0) : u.err = false :=
  Bool.eq_false_iff.2 fun herr => h.err_iff.1 herr hcode

end

/-- Settles O10: the completion ends as some command does, which fixes the last-command fields; the word is that of the
only command that reports WARN, or AGREE and DBG_TBL. -/
theorem completionRewritesTheLastCommandFields : Obligations.CompletionRewritesTheLastCommandFields := by
  intro s
  obtain ⟨t, ht⟩ := completePending_answers_next s
  obtain ⟨_, hend⟩ := completion_of_completePending ht
  have hlast := hend.lastCommand
  have of_debug (hflag : t.status.agree = true ∨ t.status.dbgTbl = true) : s.pending = 0x5 :=
    pending_eq_encode ht fun _ h => h.eq_debug_of_agree_or_dbgTbl hflag
  refine ⟨t, ht, hend.not_busy_and_program.1, lastop_of_completePending ht, hlast.err_iff, fun hwarn => ?_,
    fun hagree => ?_, fun hdbgTbl => of_debug (.inr hdbgTbl), hlast.violations, hlast.absent⟩
  · exact ⟨pending_eq_encode ht fun _ h => h.eq_buildTable_of_warn hwarn, hlast.err_eq_false (hlast.warn hwarn).1⟩
  · exact ⟨of_debug (.inl hagree), hlast.err_eq_false (hlast.agree hagree).1⟩

/-! ### The machine never stops -/

/-- R343: the ENGINE agent's turn completes the pending command, or does nothing. -/
theorem engineTurn_answers_next (s : State) : ∃ t, engineTurn s = .next t := by
  unfold engineTurn
  split
  · exact completePending_answers_next s
  · exact ⟨s, rfl⟩

/-- Settles O8: the turns of the host and of the reset input have an answer by definition, the others by completing. -/
theorem everyStepAnswersANextState : Obligations.EveryStepAnswersANextState := by
  intro s
  rcases step_cases s with ⟨ts, -, e⟩ | ⟨ts, -, e⟩ | ⟨ts, -, e⟩ | ⟨-, -, e⟩ | ⟨-, -, e⟩ <;> rw [Safe, e]
  · exact ⟨_, rfl⟩
  · exact engineTurn_answers_next _
  · exact ⟨_, rfl⟩
  · exact completePending_answers_next s
  · exact ⟨_, rfl⟩

end Sys2Proof.Machine
end

section
/-! SUPPORT. The reset and hazards family: the turns of the two agents and of the reset input, each as one equation of
the step, and the life of a command from its CMD write to its completion (R340 to R343). -/

namespace Sys2Proof.Machine

/-! ### The turn of the ENGINE agent -/

section
variable {s : State} {i : Instr} {p : List HostOp} {ts : List Turn}

/-- R343: the completion of a word that decodes is its command's. -/
theorem completePending_of_decode (hdecode : decode s.pending = .ok i) : completePending s = exec i s := by
  rw [completePending, hdecode]

/-- R343: the ENGINE agent's turn runs the pending command. -/
theorem step_of_engine_turn_decode (hturns : s.turns = .engine :: ts) (hbusy : s.status.busy = true)
    (hdecode : decode s.pending = .ok i) : step s = exec i (setTurns ts s) :=
  (step_of_engine_turn hturns hbusy).trans (completePending_of_decode hdecode)

/-- R343: with nothing pending, the ENGINE agent's turn is taken and that is all. -/
theorem step_of_engine_turn_idle (hturns : s.turns = .engine :: ts) (hidle : s.status.busy = false) :
    step s = .next (setTurns ts s) := by simp [step, takeTurn, hturns, engineTurn, hidle]

/-- The state prepared for a command word has that word pending, and the turn it adds is the one the step takes. -/
theorem setTurns_withFetchWord {w : Nat} (hw : w < 2 ^ 64) :
    setTurns s.turns (s.withFetchWord 64 w) =
      { s with pending := BitVec.ofNat 64 w, status := { s.status with busy := true } } := by
  rw [State.withFetchWord, Nat.mod_eq_of_lt hw]
  rfl

/-! ### The host's turn at a CMD write -/

/-- R41, R128: the host's turn at a `CMD <mnemonic>` with nothing pending: the command is accepted and answered. -/
theorem hostTurn_asmCmd (hprogram : s.program = asmCmd i :: p) (hidle : s.status.busy = false) :
    hostTurn s = setProgram p (record (.write .okay) (acceptCommand (encode i) s)) := by
  have htxn : hostTransaction (.write 0x100 .b8 (encode i)) s =
      record (.write .okay) (acceptCommand (encode i) s) := by
    rw [hostTransaction, hostWrite_cmd hidle]
  rw [hostTurn, hprogram, ← htxn]
  rfl

/-! ### The turn of the reset input -/

theorem step_of_reset_turn (hturns : s.turns = .reset :: ts) : step s = .next (resetInput (setTurns ts s)) := by
  simp [step, takeTurn, hturns]

/-- R340: no register shows what the reset input leaves as it was. -/
theorem readReg_resetInput (s : State) (r : Reg) : readReg (resetInput s) r = readReg State.reset r := by
  cases r <;> rfl

end

/-! ### The statements -/

/-- Settles O23: the host's turn is the acceptance; the word it latches decodes to the command, so the ENGINE agent's
turn runs it. -/
theorem commandIsAcceptedPendsAndCompletes : Obligations.CommandIsAcceptedPendsAndCompletes := by
  refine ⟨fun s i p ts hwf hidle hprogram hturns => ⟨?_, hostWrite_busy rfl, ?_⟩,
    fun s v hbusy => hostWrite_busy hbusy _ _ v⟩
  · have haccept := hostTurn_asmCmd (s := setTurns (.engine :: ts) s) hprogram hidle
    exact (step_of_host_turn hturns).trans (congrArg Host.Outcome.next haccept)
  · exact step_of_engine_turn_decode rfl rfl (decode_encode hwf)

/-- Settles O7: with a turn, with none, and in the prepared state, the step is the completion of the pending word. -/
theorem stepRunsThePendingCommand : Obligations.StepRunsThePendingCommand := by
  refine ⟨fun s i ts hbusy hdecode hturns => step_of_engine_turn_decode hturns hbusy hdecode,
    fun s i hbusy hdecode hturns => (step_of_no_turns_busy hturns hbusy).trans (completePending_of_decode hdecode),
    fun s w i hw hdecode => ?_⟩
  have hpending : decode (s.withFetchWord 64 w).pending = .ok i := by
    rw [State.withFetchWord, Nat.mod_eq_of_lt hw, hdecode]
  rw [step_of_engine_turn_decode rfl rfl hpending, setTurns_withFetchWord hw]

/-- Settles O9: the completion always has an answer, and it ends as a command does, which clears BUSY. -/
theorem engineHasNoStepWhileIdle : Obligations.EngineHasNoStepWhileIdle := by
  refine fun s ts hturns => ⟨fun hbusy => ?_, step_of_engine_turn_idle hturns⟩
  obtain ⟨t, ht⟩ := completePending_answers_next (setTurns ts s)
  obtain ⟨_, hend⟩ := completion_of_completePending ht
  exact ⟨t, (step_of_engine_turn hturns hbusy).trans ht, ht, hend.not_busy_and_program.1⟩

/-- Settles O14: what the reset input leaves of the registers and of the table is what reset leaves. -/
theorem resetInputAbandonsThePendingCommand : Obligations.ResetInputAbandonsThePendingCommand := by
  intro s ts hturns
  obtain ⟨hregs, -, htable, -⟩ := resetLeavesEveryRegisterZero
  exact ⟨resetInput (setTurns ts s), step_of_reset_turn hturns,
    fun r hr => (readReg_resetInput _ r).trans (hregs r hr), htable, rfl, rfl, rfl, rfl, fun _ => rfl⟩

end Sys2Proof.Machine
end
